-- ==== Sys2Proof/Word.lean ====
section
/-! DEFINITION. The words of the two ports and of the data (spec/30_encoding.md R30, R34, R36, R37, R39, R40). -/

namespace Sys2Proof

/-- A command word, `cmd[66:0]` (R30). -/
abbrev CmdWord := BitVec 67

/-- A response word, `rsp[74:0]` (R34). -/
abbrev RspWord := BitVec 75

/-- One symbol component, 32 bits (R37). -/
abbrev Component := BitVec 32

/-- An 8-bit character code (R40). -/
abbrev CharCode := BitVec 8

/-- A 2-bit ROM index, identifier or cursor value (R5 `IDW`). -/
abbrev Index := BitVec 2

/-- A 2-bit label or bit pair: first character in bit 1, second in bit 0 (R39). -/
abbrev Pair := BitVec 2

/-- A symbol: real and imaginary component words (R36). -/
structure Symbol where
  re : Component
  im : Component
  deriving DecidableEq, Repr

end Sys2Proof
end

