-- ==== Sys2Proof/Syntax.lean ====
section
/-! DEFINITION. The commands: one constructor per row of spec/opcode_table.json (spec/30_encoding.md R31, R32, R42). -/

namespace Sys2Proof

/-- A command with its operands. Reserved argument bits are no operand: words that differ only in them are the same
command (R33). Every operand has exactly the width of its field, so every value of this type can be encoded (R43). -/
inductive Instr where
  /-- `ROMRD k` (R50). -/
  | romrd (k : Index)
  /-- `MAP {b_first, b_second}` (R56). -/
  | map (bFirst bSecond : Bool)
  /-- `MAPC len, c_first, c_second` (R58). -/
  | mapc (len cFirst cSecond : BitVec 8)
  /-- `BEGIN` (R65). -/
  | begin
  /-- `ENC {b_first, b_second}` (R67). -/
  | enc (bFirst bSecond : Bool)
  /-- `CLS re, im` (R80). -/
  | cls (re im : Component)
  /-- Opcode 0b110 with any argument (R42). -/
  | reserved6
  /-- Opcode 0b111 with any argument (R42). -/
  | reserved7
  deriving DecidableEq, Repr

end Sys2Proof
end

