-- ==== Sys2Proof/Decode.lean ====
section
/-! DEFINITION. Command words to commands and back (spec/30_encoding.md R30 to R33, R42, R43; spec/opcode_table.json). -/

namespace Sys2Proof

/-- `op = cmd[66:64]` (R30). -/
def opField (w : CmdWord) : BitVec 3 := w.extractLsb' 64 3

/-- `arg = cmd[63:0]` (R30). -/
def argField (w : CmdWord) : BitVec 64 := w.extractLsb' 0 64

/-- The decoder: every one of the 2^67 words decodes to one of the six commands or to an illegal one (R42), and bits that
no format names are ignored (R33). -/
def decode (w : CmdWord) : Instr :=
  let op := opField w
  let arg := argField w
  if op = 0b000 then .romrd (arg.extractLsb' 0 2)
  else if op = 0b001 then .map (arg.getLsbD 1) (arg.getLsbD 0)
  else if op = 0b010 then .mapc (arg.extractLsb' 16 8) (arg.extractLsb' 8 8) (arg.extractLsb' 0 8)
  else if op = 0b011 then .begin
  else if op = 0b100 then .enc (arg.getLsbD 1) (arg.getLsbD 0)
  else if op = 0b101 then .cls (arg.extractLsb' 32 32) (arg.extractLsb' 0 32)
  else if op = 0b110 then .reserved6
  else .reserved7

/-- Why a number is no command. -/
inductive DecodeReject where
  /-- The number has a bit above bit 66: the command port is 67 bits wide (R30), so no host can present it. Safe. -/
  | widerThanPort
  deriving DecidableEq, Repr

/-- The decoder on any number: a command word, or a rejection by name. -/
def decodeNumber (n : Nat) : Except DecodeReject Instr :=
  if n < 2 ^ 67 then .ok (decode (BitVec.ofNat 67 n)) else .error .widerThanPort

/-- The decoder on a table word of `nbits` bits, every bit above them 0. -/
def decodeTableWord (nbits w : Nat) : Option Instr :=
  match decodeNumber (w % 2 ^ nbits) with
  | .ok i => some i
  | .error _ => none

/-- `{op, arg}` (R30). -/
def commandWord (op : BitVec 3) (arg : BitVec 64) : CmdWord := op ++ arg

/-- The argument of format B, `{b_first, b_second}` in `arg[1:0]` (R32). -/
def pairArg (bFirst bSecond : Bool) : BitVec 64 :=
  (0 : BitVec 62) ++ (BitVec.ofBool bFirst ++ BitVec.ofBool bSecond)

/-- The encoder: reserved argument bits are written as 0 (R33, R44). -/
def encode : Instr → CmdWord
  | .romrd k => commandWord 0b000 ((0 : BitVec 62) ++ k)
  | .map bFirst bSecond => commandWord 0b001 (pairArg bFirst bSecond)
  | .mapc len cFirst cSecond => commandWord 0b010 ((0 : BitVec 40) ++ (len ++ (cFirst ++ cSecond)))
  | .begin => commandWord 0b011 0
  | .enc bFirst bSecond => commandWord 0b100 (pairArg bFirst bSecond)
  | .cls re im => commandWord 0b101 (re ++ im)
  | .reserved6 => commandWord 0b110 0
  | .reserved7 => commandWord 0b111 0

/-- The column "mask" of spec/opcode_table.json, the same for every row. -/
def rowMask : CmdWord := 0x70000000000000000

/-- The column "match" of spec/opcode_table.json. -/
def rowMatch : Instr → CmdWord
  | .romrd _ => 0x00000000000000000
  | .map _ _ => 0x10000000000000000
  | .mapc _ _ _ => 0x20000000000000000
  | .begin => 0x30000000000000000
  | .enc _ _ => 0x40000000000000000
  | .cls _ _ => 0x50000000000000000
  | .reserved6 => 0x60000000000000000
  | .reserved7 => 0x70000000000000000

/-- The bits of a word that its format names (R32): the opcode and the operand fields. All others are reserved. -/
def usedMask (op : BitVec 3) : CmdWord :=
  if op = 0b000 ∨ op = 0b001 ∨ op = 0b100 then 0x70000000000000003
  else if op = 0b010 then 0x70000000000FFFFFF
  else if op = 0b101 then 0x7FFFFFFFFFFFFFFFF
  else 0x70000000000000000

end Sys2Proof
end

