-- ==== Sys2Proof/Config.lean ====
section
/-! DEFINITION. What is fixed for one hardware and does not change as it runs (spec/00_scope.md R5,
spec/93_implementation_defined.md I1, I2, I15, M4, M5). The value for this hardware is `Machine.hardware`. -/

namespace Sys2Proof

/-- One entry of the constellation ROM (R16). -/
structure RomEntry where
  id : Index
  label : Pair
  re : Component
  im : Component
  deriving DecidableEq, Repr

/-- The configuration. -/
structure Config where
  /-- The constellation ROM, entry `k` at index `k` (R16, R21; `ROM_ORDER`). -/
  rom : Vector RomEntry 4
  /-- The distance unit (R83; `DIST`): from a symbol with finite components and a ROM entry to a totally ordered type,
  here the integers (distances counted in a fixed unit, R83 and M11; log 5). -/
  dist : Symbol → RomEntry → Int
  /-- The code of the character '1' (R5 `CHAR_ONE`). -/
  charOne : CharCode
  /-- The code of the character '0' (R5 `CHAR_ZERO`). -/
  charZero : CharCode

end Sys2Proof
end

