-- ==== Sys2Proof/Machine/Float.lean ====
section
/-! DEFINITION. A component word as a binary32 number (spec/30_encoding.md R37, R38). -/

namespace Sys2Proof.Machine

/-- `s = w[31]`. -/
def signBit (w : Component) : Bool := w.getLsbD 31

/-- `e = w[30:23]`. -/
def expField (w : Component) : Nat := (w.extractLsb' 23 8).toNat

/-- `f = w[22:0]`. -/
def fracField (w : Component) : Nat := (w.extractLsb' 0 23).toNat

/-- `finite(w)`: exactly when `e != 255` (R37). -/
def finite (w : Component) : Bool := expField w != 255

/-- What a component word stands for (R37). -/
inductive Value where
  /-- A finite word: an exact rational. -/
  | rat (q : Rat)
  /-- `+Inf` or `-Inf`, by the sign bit. -/
  | inf (negative : Bool)
  /-- `NaN`, quiet and signalling alike. -/
  | nan
  deriving DecidableEq, Repr

/-- `val(w)` (R37), row by row. The sign of a zero is not part of its value. -/
def val (w : Component) : Value :=
  let sign : Rat := if signBit w then -1 else 1
  if expField w = 255 then
    if fracField w = 0 then .inf (signBit w) else .nan
  else if expField w = 0 then
    .rat (sign * 2 ^ (-126 : Int) * ((fracField w : Rat) / 2 ^ 23))
  else
    .rat (sign * 2 ^ ((expField w : Int) - 127) * (1 + (fracField w : Rat) / 2 ^ 23))

/-- The magnitude of a finite word, counted in units of 2^-149, the least subnormal: every finite binary32 is a whole
number of them (spec/93_implementation_defined.md M11; log 5). -/
def scaledMagnitude (w : Component) : Nat :=
  if expField w = 0 then fracField w else (2 ^ 23 + fracField w) * 2 ^ (expField w - 1)

/-- `val(w) * 2^149` for a finite word, exactly. Of no meaning for a word that is not finite, for which no caller uses
it (R81). -/
def scaled (w : Component) : Int :=
  if signBit w then -(scaledMagnitude w : Int) else scaledMagnitude w

/-- `POS1`, the word of +1.0 (R38). -/
def pos1 : Component := 0x3F800000

/-- `NEG1`, the word of -1.0 (R38). -/
def neg1 : Component := 0xBF800000

/-- The word of a rational that binary32 holds exactly, and nothing for any other (R44: the operands of `CLS (a, b)` are
"two real numbers exactly representable in binary32"). 0 is written +0. -/
def wordOfReal (q : Rat) : Option Component :=
  let n := q.num.natAbs * 2 ^ 149 / q.den
  let sign := if q.num < 0 then 2 ^ 31 else 0
  if q.num.natAbs * 2 ^ 149 % q.den ≠ 0 then none
  else if n < 2 ^ 23 then some (BitVec.ofNat 32 (sign + n))
  else
    let e := n.log2 - 22
    if e ≤ 254 ∧ n % 2 ^ (e - 1) = 0 then
      some (BitVec.ofNat 32 (sign + e * 2 ^ 23 + (n / 2 ^ (e - 1) - 2 ^ 23)))
    else none

end Sys2Proof.Machine
end

