-- ==== Sys2Proof/Machine/Distance.lean ====
section
/-! DEFINITION. The distance unit (spec/43_classifier.md R75, R83): exact squared Euclidean distance. -/

namespace Sys2Proof.Machine

/-- `D2(s, k) * 2^298`: the exact squared distance from a symbol with finite components to a ROM point, counted in units of
2^-298 so that it is a whole number (R75; spec/93_implementation_defined.md M11; log 5). -/
def distExact (s : Symbol) (e : RomEntry) : Int :=
  (scaled s.re - scaled e.re) ^ 2 + (scaled s.im - scaled e.im) ^ 2

/-- The rational a finite word stands for; `val` gives a word that is not finite no rational, and none is used. -/
def finiteVal (w : Component) : Option Rat :=
  match val w with
  | .rat q => some q
  | .inf _ => none
  | .nan => none

/-- `D2(s, k)` as R75 writes it, over the rationals: defined for finite components and for no others. -/
def exactD2 (s : Symbol) (e : RomEntry) : Option Rat :=
  match finiteVal s.re, finiteVal s.im, finiteVal e.re, finiteVal e.im with
  | some x, some y, some p, some q => some ((x - p) ^ 2 + (y - q) ^ 2)
  | _, _, _, _ => none

end Sys2Proof.Machine
end

