-- ==== Sys2Proof/Machine/Hardware.lean ====
section
/-! DEFINITION. The configuration of this hardware (spec/00_scope.md R5, spec/20_memory.md R21). -/

namespace Sys2Proof.Machine

/-- The contents of the constellation ROM (R21; the order is the spec's decision D4). -/
def romTable : Vector RomEntry 4 :=
  #v[{ id := 0, label := 0b00, re := 0xBF800000, im := 0xBF800000 },
     { id := 1, label := 0b01, re := 0xBF800000, im := 0x3F800000 },
     { id := 2, label := 0b10, re := 0x3F800000, im := 0xBF800000 },
     { id := 3, label := 0b11, re := 0x3F800000, im := 0x3F800000 }]

/-- This hardware: the ROM of R21, `DIST = EXACT` (R83), the characters of R40. -/
def hardware : Config where
  rom := romTable
  dist := distExact
  charOne := 0x31
  charZero := 0x30

end Sys2Proof.Machine
end

