-- ==== Sys2Proof/Machine/State.lean ====
section
/-! DEFINITION. The state (spec/10_state.md R13, R18, R19), the responses (spec/30_encoding.md R34, R35), and the ways a step
can stop. -/

namespace Sys2Proof.Machine

/-- The status of a response (R35). Codes 0b100 to 0b111 are never produced, so there are four names (M3). -/
inductive Status where
  | ok
  | errLen
  | errOp
  | errNonfinite
  deriving DecidableEq, Repr

/-- The data fields of a response (R34). A field a command does not define is 0: the fill rule. -/
structure Data where
  idx : Index := 0
  label : Pair := 0
  bits : Pair := 0
  re : Component := 0
  im : Component := 0
  deriving DecidableEq, Repr

/-- One response (R34). -/
structure Rsp where
  status : Status
  cur : Index
  data : Data
  deriving DecidableEq, Repr

/-- What the host may send: a command word or a reset, each between two commands (R95, R120). -/
inductive Event where
  | command (w : CmdWord)
  | reset
  deriving DecidableEq, Repr

/-- The machine. `cur` is the whole state the spec gives the block (R18). `events` and `responses` are the MODEL's own: what
the host has still to present, oldest first, and what the block has answered, oldest first (R27, R131; log 1). -/
structure State where
  cur : Index
  events : List Event
  responses : List Rsp
  deriving DecidableEq, Repr

/-- Faults: none. The spec names no condition that stops the block (R109: "The block never halts, locks up or needs a reset
because of an error"); its three errors are responses (log 3). -/
inductive Fault where
  deriving DecidableEq, Repr

/-- Refusals. -/
inductive Refusal where
  /-- An instruction without a meaning. No arm of `exec` raises it: every row of the opcode table has its meaning. Safe. -/
  | notModelled (mnemonic : String)
  deriving DecidableEq, Repr

/-- After reset: `CUR = 0` (R19, R120: the spec's decision D14). The block waits for its first command (R121), and nothing
has been answered. -/
def State.reset : State where
  cur := 0
  events := []
  responses := []

end Sys2Proof.Machine
end

