-- ==== Sys2Proof/Machine/Ops.lean ====
section
/-! DEFINITION. The operations every meaning is written over: the one memory read, the register writes, the response, the
error, and the events that are no command. -/

namespace Sys2Proof.Machine

/-- The answer of one step of this machine. -/
abbrev Answer := Host.Outcome State Fault Refusal

/-- `MemRead(k, 1)`, that is `ROM[k]` (spec/20_memory.md R20, R26): one whole entry, every index populated, no effect. -/
def readRom (c : Config) (k : Index) : RomEntry := c.rom[k.toNat]'k.isLt

/-- `CUR <- v` (spec/10_state.md R13). -/
def State.setCur (s : State) (v : Index) : State := { s with cur := v }

/-- The events still to come. -/
def State.setEvents (s : State) (es : List Event) : State := { s with events := es }

/-- One more response, after all earlier ones. -/
def State.emit (s : State) (r : Rsp) : State := { s with responses := s.responses ++ [r] }

/-- `respond(OK, ...)` (spec/00_scope.md R7, spec/30_encoding.md R34): field `cur` is `CUR` after every write of the command,
so a meaning writes `CUR` first. -/
def respondOk (d : Data) (s : State) : Answer :=
  .next (s.emit { status := .ok, cur := s.cur, data := d })

/-- The three error conditions (spec/60_exceptions.md R105). -/
inductive BlockError where
  | len
  | op
  | nonfinite
  deriving DecidableEq, Repr

/-- The status of each error (R105). -/
def errorStatus : BlockError → Status
  | .len => .errLen
  | .op => .errOp
  | .nonfinite => .errNonfinite

/-- `raise <Error>` (spec/60_exceptions.md R108), "the whole of the block's trap entry": the status of the error, `CUR`
unchanged in field `cur`, every data field 0, nothing written, and the command is complete. There is nothing to return
from (R109). -/
def raise (e : BlockError) (s : State) : Answer :=
  .next (s.emit { status := errorStatus e, cur := s.cur, data := {} })

/-- The reset event (spec/70_reset_and_hazards.md R120): `CUR <- 0` and nothing else, no response. -/
def applyReset (s : State) : Answer := .next (s.setCur 0)

/-- No event presented: the block waits (spec/70_reset_and_hazards.md R121; log 4). -/
def idle (s : State) : Answer := .next s

/-- The host presents a command word before everything still pending. -/
def presentWord (s : State) (w : CmdWord) : State := s.setEvents (.command w :: s.events)

end Sys2Proof.Machine
end

