-- ==== Sys2Proof/Machine/Classifier.lean ====
section
/-! DEFINITION. The command CLS and its units ARGMIN and COMPL (spec/43_classifier.md). -/

namespace Sys2Proof.Machine

/-- One turn of the scan (R77): replace only on strictly less. -/
def scanTurn {α : Type} [LT α] [DecidableLT α] (best : Index × α) (k : Index) (dk : α) : Index × α :=
  if dk < best.2 then (k, dk) else best

/-- `ARGMIN(d0, d1, d2, d3)` (R77): start with entry 0, scan 1, 2, 3 in this order. -/
def argmin {α : Type} [LT α] [DecidableLT α] (d0 d1 d2 d3 : α) : Index :=
  (scanTurn (scanTurn (scanTurn (0, d0) 1 d1) 2 d2) 3 d3).1

/-- `ARGMIN'` of R90: start with any index and a value `top` that stands for an infinity, scan 0, 1, 2, 3. No command
uses it; R90 says it agrees with `argmin`. -/
def argminFrom {α : Type} [LT α] [DecidableLT α] (start : Index) (top d0 d1 d2 d3 : α) : Index :=
  (scanTurn (scanTurn (scanTurn (scanTurn (start, top) 0 d0) 1 d1) 2 d2) 3 d3).1

/-- `COMPL(label)` (R79): always applied. -/
def complementLabel (label : Pair) : Pair := ~~~label

/-- The index of the ROM entry nearest to a symbol with finite components, by the configuration's distance (R80). -/
def nearest (c : Config) (x : Symbol) : Index :=
  argmin (c.dist x (readRom c 0)) (c.dist x (readRom c 1)) (c.dist x (readRom c 2)) (c.dist x (readRom c 3))

/-- The data fields that show a winner (R80): its index, its stored label, and the complement of that label. The label
comes from the ROM entry and never from the index (R88). -/
def winnerData (c : Config) (w : Index) : Data :=
  { idx := w, label := (readRom c w).label, bits := complementLabel (readRom c w).label }

/-- `CLS` (R80): the finiteness check first (R81), then the scan. Writes nothing. -/
def execCls (re im : Component) (s : State) : Answer :=
  if finite re && finite im then respondOk (winnerData hardware (nearest hardware { re := re, im := im })) s
  else raise .nonfinite s

end Sys2Proof.Machine
end

