-- ==== Sys2Proof/Machine/Operands.lean ====
section
/-! DEFINITION. Operand and data formats: pairs, characters, symbol words, packed ROM entries (spec/30_encoding.md R36, R39,
R40, R41). Operand fields are taken as they stand (R33), which the decoder does. -/

namespace Sys2Proof.Machine

/-- A bit pair as a 2-bit field: first character in bit 1, second in bit 0 (R39). -/
def pairOf (first second : Bool) : Pair := BitVec.ofBool first ++ BitVec.ofBool second

/-- `c2b(c)` (R40): 1 for the code of '1', 0 for every other code. -/
def c2b (c : Config) (code : CharCode) : Bool := code == c.charOne

/-- `b2c(b)` (R40). -/
def b2c (c : Config) (b : Bool) : CharCode := if b then c.charOne else c.charZero

/-- A symbol word `{re, im}` (R36). -/
def symbolWord (s : Symbol) : BitVec 64 := s.re ++ s.im

/-- A packed ROM entry `{.id, .label, .re, .im}` (R41). -/
def packEntry (e : RomEntry) : BitVec 68 := e.id ++ (e.label ++ (e.re ++ e.im))

end Sys2Proof.Machine
end

