-- ==== Sys2Proof/Machine/Mapper.lean ====
section
/-! DEFINITION. The commands MAP and MAPC (spec/41_mapper.md). -/

namespace Sys2Proof.Machine

/-- One axis of the mapper (R55): a 0 bit gives +1, a 1 bit gives -1. -/
def axis (b : Bool) : Component := if b then neg1 else pos1

/-- `sym(b_first, b_second)` (R55): the first bit sets the real component, the second the imaginary. It reads no state
and no ROM entry. -/
def sym (bFirst bSecond : Bool) : Symbol := { re := axis bFirst, im := axis bSecond }

/-- The data fields that show one mapped symbol (R56); `idx`, `label` and `bits` are 0. -/
def symbolData (x : Symbol) : Data := { re := x.re, im := x.im }

/-- `MAP` (R56): writes nothing, always OK. -/
def execMap (bFirst bSecond : Bool) (s : State) : Answer := respondOk (symbolData (sym bFirst bSecond)) s

/-- `MAPC` (R58): the length check first (R59), then the characters, every code accepted (R60). Writes nothing. -/
def execMapc (len cFirst cSecond : BitVec 8) (s : State) : Answer :=
  if len ≠ 2 then raise .len s
  else respondOk (symbolData (sym (c2b hardware cFirst) (c2b hardware cSecond))) s

end Sys2Proof.Machine
end

