-- ==== Sys2Proof/Machine/Encoder.lean ====
section
/-! DEFINITION. The commands BEGIN and ENC (spec/42_encoder_cursor.md), the only two that write state. -/

namespace Sys2Proof.Machine

/-- `(CUR + 1) mod 4` (R69): on the 2-bit register an increment with the carry out dropped. -/
def advance (cur : Index) : Index := cur + 1

/-- `BEGIN` (R65): `CUR <- 0`, then respond with every data field 0. -/
def execBegin (s : State) : Answer := respondOk {} (s.setCur 0)

/-- `ENC` (R67): map the pair, advance the cursor, respond; field `cur` carries the new value. -/
def execEnc (bFirst bSecond : Bool) (s : State) : Answer :=
  respondOk (symbolData (sym bFirst bSecond)) (s.setCur (advance s.cur))

end Sys2Proof.Machine
end

