-- ==== Sys2Proof/Machine/Reserved.lean ====
section
/-! DEFINITION. The reserved opcodes (spec/30_encoding.md R42, spec/60_exceptions.md R107). -/

namespace Sys2Proof.Machine

/-- Opcode 0b110: ERR_OP, the argument not examined. -/
def execReserved6 (s : State) : Answer := raise .op s

/-- Opcode 0b111: ERR_OP, the argument not examined. -/
def execReserved7 (s : State) : Answer := raise .op s

end Sys2Proof.Machine
end

