-- ==== Sys2Proof/Machine/RomRead.lean ====
section
/-! DEFINITION. The command ROMRD (spec/40_rom_read.md). -/

namespace Sys2Proof.Machine

/-- The data fields that show one ROM entry (R50); `bits` is 0. -/
def entryData (e : RomEntry) : Data := { idx := e.id, label := e.label, re := e.re, im := e.im }

/-- `ROMRD k` (R50): writes nothing, always OK. -/
def execRomrd (k : Index) (s : State) : Answer := respondOk (entryData (readRom hardware k)) s

end Sys2Proof.Machine
end

