-- ==== Sys2Proof/Machine/Dispatch.lean ====
section
/-! DEFINITION. One arm per command. -/

namespace Sys2Proof.Machine

/-- What a command does (spec/30_encoding.md R31). -/
def exec (i : Instr) (s : State) : Host.Outcome State Fault Refusal :=
  match i with
  | .romrd k => Sys2Proof.Machine.execRomrd k s
  | .map bFirst bSecond => Sys2Proof.Machine.execMap bFirst bSecond s
  | .mapc len cFirst cSecond => Sys2Proof.Machine.execMapc len cFirst cSecond s
  | .begin => Sys2Proof.Machine.execBegin s
  | .enc bFirst bSecond => Sys2Proof.Machine.execEnc bFirst bSecond s
  | .cls re im => Sys2Proof.Machine.execCls re im s
  | .reserved6 => Sys2Proof.Machine.execReserved6 s
  | .reserved7 => Sys2Proof.Machine.execReserved7 s

end Sys2Proof.Machine
end

