-- ==== Sys2Proof/Machine/Step.lean ====
section
/-! DEFINITION. One step: one event of the host, taken wholly (spec/20_memory.md R27, spec/44_passes.md R95). -/

namespace Sys2Proof.Machine

/-- The next event is taken off the list and acted on; with none presented the block waits. -/
def step (s : State) : Host.Outcome State Fault Refusal :=
  match s.events with
  | [] => idle s
  | .reset :: rest => applyReset (s.setEvents rest)
  | .command w :: rest => exec (decode w) (s.setEvents rest)

/-- The word presented as the very next event, so that the next step runs exactly it. The port has 67 bits (R30): a number
with higher bits, which `decodeTableWord` rejects, cannot be presented and only its low 67 bits are. -/
def State.withFetchWord (s : State) (nbits w : Nat) : State :=
  presentWord s (BitVec.ofNat 67 (w % 2 ^ nbits))

end Sys2Proof.Machine
end

