-- ==== Sys2Proof/Machine/Flags.lean ====
section
/-! DEFINITION. The block has no flags (spec/10_state.md R12): what stands in their place is the status field of each
response. The status codes and the response word (spec/30_encoding.md R34, R35). -/

namespace Sys2Proof.Machine

/-- The code of a status (R35). -/
def statusCode : Status → BitVec 3
  | .ok => 0b000
  | .errLen => 0b001
  | .errOp => 0b010
  | .errNonfinite => 0b011

/-- The status of a code; none for the codes that are never produced. -/
def statusOfCode (c : BitVec 3) : Option Status :=
  if c = 0b000 then some .ok
  else if c = 0b001 then some .errLen
  else if c = 0b010 then some .errOp
  else if c = 0b011 then some .errNonfinite
  else none

/-- The response word `{status, cur, idx, label, bits, re, im}` (R34). -/
def rspWord (r : Rsp) : RspWord :=
  statusCode r.status ++ (r.cur ++ (r.data.idx ++ (r.data.label ++ (r.data.bits ++ (r.data.re ++ r.data.im)))))

/-- A response word read back, field by field (R34). -/
def rspOfWord (w : RspWord) : Option Rsp :=
  (statusOfCode (w.extractLsb' 72 3)).map fun st =>
    { status := st
      cur := w.extractLsb' 70 2
      data :=
        { idx := w.extractLsb' 68 2
          label := w.extractLsb' 66 2
          bits := w.extractLsb' 64 2
          re := w.extractLsb' 32 32
          im := w.extractLsb' 0 32 } }

end Sys2Proof.Machine
end

