-- ==== Sys2Proof/Machine/Passes.lean ====
section
/-! DEFINITION. Runs of the block, and the host's two pseudo-commands over it (spec/30_encoding.md R45, spec/44_passes.md R96,
R97, spec/70_reset_and_hazards.md R131). -/

namespace Sys2Proof.Machine

/-- `n` steps, stopping where a step stops. -/
def runFor : Nat → State → Answer
  | 0, s => .next s
  | n + 1, s =>
    match step s with
    | .next t => runFor n t
    | .fault f => .fault f
    | .refused r => .refused r

/-- The host presents commands, before everything still pending. -/
def presentCommands (is : List Instr) (s : State) : State :=
  s.setEvents (is.map (fun i => .command (encode i)) ++ s.events)

/-- The host presents commands and collects their responses: the responses, in order, and the state they leave. -/
def runPass (is : List Instr) (s : State) : Option (List Rsp × State) :=
  match runFor is.length (presentCommands is s) with
  | .next t => some (t.responses.drop s.responses.length, t)
  | .fault _ => none
  | .refused _ => none

/-- The adjacent pairs of a text; a trailing odd character is in none of them (R96 a). -/
def pairsOf : List CharCode → List (CharCode × CharCode)
  | a :: b :: rest => (a, b) :: pairsOf rest
  | _ => []

/-- The commands of `ENCODE text` (R45, R96): BEGIN, then one ENC per pair, its characters through `c2b`. -/
def encodeCommands (text : List CharCode) : List Instr :=
  .begin :: (pairsOf text).map fun p => .enc (c2b hardware p.1) (c2b hardware p.2)

/-- `ENCODE text` (R96): the symbols of the ENC responses, in order, and the state after the pass. -/
def encodePass (text : List CharCode) (s : State) : Option (List Symbol × State) :=
  (runPass (encodeCommands text) s).map fun rt =>
    (rt.1.tail.map fun r => { re := r.data.re, im := r.data.im }, rt.2)

/-- The commands of `DECODE symbols` (R45, R97): one CLS per symbol. -/
def decodeCommands (symbols : List Symbol) : List Instr := symbols.map fun x => .cls x.re x.im

/-- The decoded text of the CLS responses (R97): two characters per response, none at all if one is not OK. -/
def decodedText : List Rsp → Option (List CharCode)
  | [] => some []
  | r :: rest =>
    if r.status = .ok then
      (decodedText rest).map fun t =>
        b2c hardware (r.data.bits.getLsbD 1) :: b2c hardware (r.data.bits.getLsbD 0) :: t
    else none

/-- `DECODE symbols` (R97): the decoded text, or no result where a symbol is not finite, and the state after the pass. -/
def decodePass (symbols : List Symbol) (s : State) : Option (Option (List CharCode) × State) :=
  (runPass (decodeCommands symbols) s).map fun rt => (decodedText rt.1, rt.2)

end Sys2Proof.Machine
end

