-- ==== Sys2Proof/Safety.lean ====
section
/-! DEFINITION. What claims take as the legal shape of answers and of the ROM. -/

namespace Sys2Proof.Machine

/-- The invariants of the ROM contents (spec/20_memory.md R23): identifiers 0 to 3, labels pairwise distinct, points pairwise
distinct, and '1' of a label on the positive axis. -/
def romWf (c : Config) : Bool :=
  decide ((∀ k, (readRom c k).id = k) ∧
    (∀ j k, (readRom c j).label = (readRom c k).label → j = k) ∧
    (∀ j k, (readRom c j).re = (readRom c k).re → (readRom c j).im = (readRom c k).im → j = k) ∧
    (∀ k, (readRom c k).re = (if (readRom c k).label.getLsbD 1 then pos1 else neg1) ∧
      (readRom c k).im = (if (readRom c k).label.getLsbD 0 then pos1 else neg1)))

/-- A response the block can give (spec/30_encoding.md R34, R37): on an error every data field is 0; on OK the data are
nothing (BEGIN), one ROM entry (ROMRD), one mapped symbol (MAP, MAPC, ENC), or one winner with its label and the
complement of it (CLS). -/
def Rsp.Legal (r : Rsp) : Prop :=
  if r.status = .ok then
    r.data = {} ∨ (∃ k, r.data = entryData (readRom hardware k)) ∨
      (∃ bFirst bSecond, r.data = symbolData (sym bFirst bSecond)) ∨ (∃ w, r.data = winnerData hardware w)
  else r.data = {}

/-- Every response given so far is one the block can give. -/
def State.Inv (s : State) : Prop := ∀ r ∈ s.responses, r.Legal

/-- The command words among events, in order; a reset is none. -/
def commandsOf : List Event → List CmdWord
  | [] => []
  | .command w :: rest => w :: commandsOf rest
  | .reset :: rest => commandsOf rest

/-- Whether a command is an ENC. -/
def isEnc : Instr → Bool
  | .enc _ _ => true
  | .romrd _ => false
  | .map _ _ => false
  | .mapc _ _ _ => false
  | .begin => false
  | .cls _ _ => false
  | .reserved6 => false
  | .reserved7 => false

end Sys2Proof.Machine
end

