-- ==== Sys2Proof/WellFormed.lean ====
section
/-! DEFINITION. The written form of a command and the checks on it (spec/30_encoding.md R44). An `Instr` needs no check:
its operands have their fields' widths (R43). A command as WRITTEN holds numbers, texts and reals that may not fit, and
`Written.wf` says when they do (log 9). -/

namespace Sys2Proof

/-- The operand of `MAP` and `ENC`: a text `"xy"` or two bits `0bxy`. -/
inductive PairOperand where
  | text (codes : List CharCode)
  | bits (xy : Pair)
  deriving DecidableEq, Repr

/-- One operand of `CLS`: a real number or a component word. -/
inductive ComponentOperand where
  | real (q : Rat)
  | word (w : Component)
  deriving DecidableEq, Repr

/-- A command as written (R44). Reserved opcodes have no mnemonic and no written form. -/
inductive Written where
  | romrd (k : Nat)
  | map (p : PairOperand)
  | mapc (len c1 c2 : Nat)
  | begin
  | enc (p : PairOperand)
  | cls (a b : ComponentOperand)
  deriving DecidableEq, Repr

/-- The characters '0' and '1' of a written text (R40). -/
def isBinaryCode (c : CharCode) : Bool := c == 0x30 || c == 0x31

/-- The two bits of a pair operand, first character first: a text has 2 characters over '0','1'. -/
def PairOperand.toBits : PairOperand → Option (Bool × Bool)
  | .text [x, y] => if isBinaryCode x && isBinaryCode y then some (x == 0x31, y == 0x31) else none
  | .text _ => none
  | .bits xy => some (xy.getLsbD 1, xy.getLsbD 0)

/-- The component word of an operand: a real must be exactly representable. -/
def ComponentOperand.toWord : ComponentOperand → Option Component
  | .real q => Machine.wordOfReal q
  | .word w => some w

/-- The command a written line stands for, or nothing where a number, a text or a real does not fit its field. -/
def Written.toInstr : Written → Option Instr
  | .romrd k => if k < 4 then some (.romrd (BitVec.ofNat 2 k)) else none
  | .map p => p.toBits.map fun b => .map b.1 b.2
  | .mapc len c1 c2 =>
    if len < 256 ∧ c1 < 256 ∧ c2 < 256 then
      some (.mapc (BitVec.ofNat 8 len) (BitVec.ofNat 8 c1) (BitVec.ofNat 8 c2))
    else none
  | .begin => some .begin
  | .enc p => p.toBits.map fun b => .enc b.1 b.2
  | .cls a b => a.toWord.bind fun re => b.toWord.map fun im => .cls re im

/-- A written command is well formed when every operand fits. -/
def Written.wf (c : Written) : Bool := c.toInstr.isSome

end Sys2Proof
end

