-- ==== Sys2Proof/Certificates/Slice0/Obligations.lean ====
section
/-! DEFINITION. The statements for the provers. Each next state is written out as a record, so a statement of a result is
also the statement of its frame: every field that is not named keeps its value. There is no memory that a command could
change (spec/20_memory.md R22). -/

open Sys2Proof Sys2Proof.Machine

/-! ### Reset, events and steps -/

/-- R120. Power-on and the reset event leave `CUR = 0` and the ROM of R21; the event answers nothing and retracts nothing.
The value 0 is the spec's own decision D14. -/
def Obligations.ResetZeroesOnlyTheCursor : Prop :=
  State.reset.cur = 0 ∧
  (∀ (s : State) (rest : List Event), step { s with events := .reset :: rest } = .next { s with cur := 0, events := rest }) ∧
  [0, 1, 2, 3].map (fun k => packEntry (readRom hardware k)) =
    [0x0BF800000BF800000, 0x5BF8000003F800000, 0xA3F800000BF800000, 0xF3F8000003F800000]

/-- The model's choice (log 4): with no event presented a step leaves the state unchanged. -/
def Obligations.BlockWaitsWithoutEvents : Prop :=
  ∀ s : State, step { s with events := [] } = .next { s with events := [] }

/-- R27: a presented command word is decoded and executed, and is then no longer pending. -/
def Obligations.StepExecutesDecodedCommand : Prop :=
  ∀ (s : State) (w : CmdWord) (rest : List Event),
    step { s with events := .command w :: rest } = exec (decode w) { s with events := rest }

/-- A word placed by `withFetchWord` is what the very next step executes, everything else as it was (log 4). -/
def Obligations.StepExecutesPlacedWord : Prop :=
  ∀ (s : State) (nbits w : Nat) (i : Instr),
    decodeTableWord nbits w = some i → step (s.withFetchWord nbits w) = exec i s

/-- R8: one total function from `CUR` and the command word alone gives the one response and the next `CUR`. -/
def Obligations.StepIsOneTotalFunction : Prop :=
  (∃ f : Index → CmdWord → Rsp, ∀ (s : State) (w : CmdWord) (rest : List Event),
    step { s with events := .command w :: rest } =
      .next { cur := (f s.cur w).cur, events := rest, responses := s.responses ++ [f s.cur w] }) ∧
  (∀ (s : State) (rest : List Event),
    step { s with events := .reset :: rest } = .next { cur := 0, events := rest, responses := s.responses })

/-- R27, R131: a run takes the events in order, each once, and every command of them, and nothing else, is answered. -/
def Obligations.RunTakesEventsInOrder : Prop :=
  ∀ (es later : List Event) (s : State), ∃ t rs,
    runFor es.length { s with events := es ++ later } = .next t ∧ t.events = later ∧
    t.responses = s.responses ++ rs ∧ rs.length = (commandsOf es).length

/-! ### Encoding -/

/-- Every command survives encoding and decoding, at every value of every operand. -/
def Obligations.DecodeEncodeRoundTrip : Prop := ∀ i : Instr, decode (encode i) = i

/-- The other direction: what decoding and encoding lose of a word is exactly its reserved bits (R32, R33). -/
def Obligations.EncodeDecodeClearsReservedBits : Prop :=
  ∀ w : CmdWord, encode (decode w) = w &&& usedMask (opField w)

/-- Words that differ only in reserved argument bits take the same step (R33). -/
def Obligations.ReservedBitsAreIgnored : Prop :=
  ∀ (w₁ w₂ : CmdWord) (s : State) (rest : List Event),
    w₁ &&& usedMask (opField w₁) = w₂ &&& usedMask (opField w₂) →
    step { s with events := .command w₁ :: rest } = step { s with events := .command w₂ :: rest }

/-- R33: every operand is its field as it stands, whatever stands in the reserved bits; the encoder writes those as 0. -/
def Obligations.OperandsAreFieldsAsTheyStand : Prop :=
  (∀ (r : BitVec 62) (k : Index), decode (commandWord 0b000 (r ++ k)) = .romrd k) ∧
  (∀ (r : BitVec 62) (b₁ b₀ : Bool), decode (commandWord 0b001 (r ++ (BitVec.ofBool b₁ ++ BitVec.ofBool b₀))) = .map b₁ b₀) ∧
  (∀ (r : BitVec 40) (len c₁ c₂ : BitVec 8), decode (commandWord 0b010 (r ++ (len ++ (c₁ ++ c₂)))) = .mapc len c₁ c₂) ∧
  (∀ r : BitVec 64, decode (commandWord 0b011 r) = .begin) ∧
  (∀ (r : BitVec 62) (b₁ b₀ : Bool), decode (commandWord 0b100 (r ++ (BitVec.ofBool b₁ ++ BitVec.ofBool b₀))) = .enc b₁ b₀) ∧
  (∀ re im : Component, decode (commandWord 0b101 (re ++ im)) = .cls re im) ∧
  (∀ i : Instr, encode i &&& ~~~usedMask (opField (encode i)) = 0)

/-- Every word lies in the row of spec/opcode_table.json that its decoding stands for, and in no other (R31, R42). -/
def Obligations.DecoderFollowsOpcodeTable : Prop :=
  ∀ (w : CmdWord) (i : Instr), w &&& rowMask = rowMatch i ↔ rowMatch (decode w) = rowMatch i

/-- Words written out in spec/95_test_vectors.md decode to the commands named there: K9, M4b, M16, B5, E9, C2, X3, X4. -/
def Obligations.WrittenOutWordsDecode : Prop :=
  decode 0x0FFFFFFFFFFFFFFFD = .romrd 1 ∧ decode 0x1FFFFFFFFFFFFFFFE = .map true false ∧
  decode 0x2ABCDEF0123023130 = .mapc 2 0x31 0x30 ∧ decode 0x3DEADBEEF00000001 = .begin ∧
  decode 0x4FFFFFFFFFFFFFFFD = .enc false true ∧ decode 0x53F800000BF800000 = .cls 0x3F800000 0xBF800000 ∧
  decode 0x63F800000BF800000 = .reserved6 ∧ decode 0x7FFFFFFFFFFFFFFFF = .reserved7

/-- R34: the response word holds every field of the response at its place, and reading it back gives the response. -/
def Obligations.ResponseWordRoundTrip : Prop :=
  (∀ r : Rsp, rspOfWord (rspWord r) = some r) ∧ (∀ w r, rspOfWord w = some r → rspWord r = w)

/-- R44: what each written command stands for, and its word. `ROMRD k` and `MAPC len, c1, c2` take numbers in range; `MAP`
and `ENC` take a text of two characters over '0','1' or two bits, first character first; `BEGIN` takes nothing; `CLS` takes
two words, or reals that binary32 holds exactly, real component first. A line whose operands do not fit stands for no
command (log 9). -/
def Obligations.WrittenCommandsStandForTheirValues : Prop :=
  (∀ k : Nat, (k < 4 → ∃ i, (Written.romrd k).toInstr = some i ∧ encode i = BitVec.ofNat 67 k) ∧
    (4 ≤ k → (Written.romrd k).toInstr = none)) ∧
  (∀ (p : PairOperand) (x y : Bool), p.toBits = some (x, y) ↔
    p = .text [b2c hardware x, b2c hardware y] ∨ p = .bits (pairOf x y)) ∧
  (∀ (p : PairOperand) (x y : Bool), p.toBits = some (x, y) →
    (Written.map p).toInstr = some (.map x y) ∧
    encode (.map x y) = BitVec.ofNat 67 (1 * 2 ^ 64 + 2 * x.toNat + y.toNat) ∧
    (Written.enc p).toInstr = some (.enc x y) ∧
    encode (.enc x y) = BitVec.ofNat 67 (4 * 2 ^ 64 + 2 * x.toNat + y.toNat)) ∧
  (∀ p : PairOperand, p.toBits = none → (Written.map p).toInstr = none ∧ (Written.enc p).toInstr = none) ∧
  (∀ len c₁ c₂ : Nat, (len < 256 ∧ c₁ < 256 ∧ c₂ < 256 → ∃ i, (Written.mapc len c₁ c₂).toInstr = some i ∧
      encode i = BitVec.ofNat 67 (2 * 2 ^ 64 + len * 2 ^ 16 + c₁ * 2 ^ 8 + c₂)) ∧
    (256 ≤ len ∨ 256 ≤ c₁ ∨ 256 ≤ c₂ → (Written.mapc len c₁ c₂).toInstr = none)) ∧
  (Written.begin.toInstr = some .begin ∧ encode .begin = BitVec.ofNat 67 (3 * 2 ^ 64)) ∧
  (∀ (a b : ComponentOperand) (re im : Component), a.toWord = some re → b.toWord = some im →
    (Written.cls a b).toInstr = some (.cls re im) ∧
    encode (.cls re im) = BitVec.ofNat 67 (5 * 2 ^ 64 + re.toNat * 2 ^ 32 + im.toNat)) ∧
  (∀ a b : ComponentOperand, a.toWord = none ∨ b.toWord = none → (Written.cls a b).toInstr = none) ∧
  (∀ w : Component, (ComponentOperand.word w).toWord = some w) ∧
  (∀ q w, (ComponentOperand.real q).toWord = some w → val w = .rat q) ∧
  (∀ w q, val w = .rat q → ∃ w', (ComponentOperand.real q).toWord = some w' ∧ val w' = .rat q)

/-! ### The ROM -/

/-- R21: the four entries, field by field and packed. The order is the spec's decision D4. -/
def Obligations.RomContents : Prop :=
  readRom hardware 0 = ⟨0, 0b00, 0xBF800000, 0xBF800000⟩ ∧ readRom hardware 1 = ⟨1, 0b01, 0xBF800000, 0x3F800000⟩ ∧
  readRom hardware 2 = ⟨2, 0b10, 0x3F800000, 0xBF800000⟩ ∧ readRom hardware 3 = ⟨3, 0b11, 0x3F800000, 0x3F800000⟩ ∧
  [0, 1, 2, 3].map (fun k => packEntry (readRom hardware k)) =
    [0x0BF800000BF800000, 0x5BF8000003F800000, 0xA3F800000BF800000, 0xF3F8000003F800000]

/-- R23: the invariants of the contents, the fifth by value. -/
def Obligations.RomInvariants : Prop :=
  (∀ j k, (readRom hardware j).label = (readRom hardware k).label → j = k) ∧
  (∀ j k, (readRom hardware j).re = (readRom hardware k).re → (readRom hardware j).im = (readRom hardware k).im → j = k) ∧
  (∀ n : Index, ∃ k, (readRom hardware k).id = n ∧ ∀ j, (readRom hardware j).id = n → j = k) ∧
  (∀ k, ((readRom hardware k).label.getLsbD 1 = true ↔ val (readRom hardware k).re = .rat 1) ∧
    ((readRom hardware k).label.getLsbD 0 = true ↔ val (readRom hardware k).im = .rat 1))

/-- R50: `ROMRD k` answers the entry's four fields and writes nothing. -/
def Obligations.RomrdAnswersTheEntry : Prop :=
  (∀ (r : BitVec 62) (k : Index), decode (commandWord 0b000 (r ++ k)) = .romrd k) ∧
  (∀ (k : Index) (s : State), exec (.romrd k) s = .next { s with responses := s.responses ++
    [{ status := .ok, cur := s.cur,
       data := { idx := (readRom hardware k).id, label := (readRom hardware k).label, bits := 0,
                 re := (readRom hardware k).re, im := (readRom hardware k).im } }] })

/-! ### The mapper -/

/-- R55, R56: a 0 bit gives +1.0 and a 1 bit -1.0; nothing is written. -/
def Obligations.MapAnswersTheSymbol : Prop :=
  (∀ (r : BitVec 62) (b₁ b₀ : Bool), decode (commandWord 0b001 (r ++ (BitVec.ofBool b₁ ++ BitVec.ofBool b₀))) = .map b₁ b₀) ∧
  (∀ (b₁ b₀ : Bool) (s : State), exec (.map b₁ b₀) s = .next { s with responses := s.responses ++
    [{ status := .ok, cur := s.cur,
       data := { idx := 0, label := 0, bits := 0,
                 re := if b₁ then 0xBF800000 else 0x3F800000,
                 im := if b₀ then 0xBF800000 else 0x3F800000 } }] })

/-- R58, R59, R60: length 2 maps each character by "is it 0x31"; every other length is ERR_LEN, whatever the characters.
Nothing is written on either path. -/
def Obligations.MapcMapsTwoCharactersOrErrs : Prop :=
  (∀ (r : BitVec 40) (len c₁ c₂ : BitVec 8), decode (commandWord 0b010 (r ++ (len ++ (c₁ ++ c₂)))) = .mapc len c₁ c₂) ∧
  (∀ (c₁ c₂ : CharCode) (s : State), exec (.mapc 2 c₁ c₂) s = .next { s with responses := s.responses ++
    [{ status := .ok, cur := s.cur,
       data := { idx := 0, label := 0, bits := 0,
                 re := if c₁ = 0x31 then 0xBF800000 else 0x3F800000,
                 im := if c₂ = 0x31 then 0xBF800000 else 0x3F800000 } }] }) ∧
  (∀ (len c₁ c₂ : BitVec 8) (s : State), len ≠ 2 → exec (.mapc len c₁ c₂) s = .next { s with responses := s.responses ++
    [{ status := .errLen, cur := s.cur, data := { idx := 0, label := 0, bits := 0, re := 0, im := 0 } }] })

/-- R61: MAPC of length 2 is MAP after `c2b`. -/
def Obligations.MapcOfTwoIsMap : Prop :=
  ∀ (c₁ c₂ : CharCode) (s : State), exec (.mapc 2 c₁ c₂) s = exec (.map (c2b hardware c₁) (c2b hardware c₂)) s

/-- R62: the mapper's image of a pair is the value of exactly one ROM entry, the one whose label is the complement. -/
def Obligations.MapperImageIsRomUnderComplement : Prop :=
  ∀ b₁ b₀ : Bool, ∃ k, (readRom hardware k).label = ~~~pairOf b₁ b₀ ∧
    (∀ j, (readRom hardware j).label = ~~~pairOf b₁ b₀ → j = k) ∧
    (∀ s : State, ∃ t r, exec (.map b₁ b₀) s = .next t ∧ t.responses = s.responses ++ [r] ∧
      r.data.re = (readRom hardware k).re ∧ r.data.im = (readRom hardware k).im)

/-! ### The encoder -/

/-- R65: `BEGIN` sets the cursor to 0 and answers the all-zero word. -/
def Obligations.BeginZeroesTheCursor : Prop :=
  (∀ r : BitVec 64, decode (commandWord 0b011 r) = .begin) ∧
  (∀ s : State, exec .begin s = .next { s with cur := 0, responses := s.responses ++
    [{ status := .ok, cur := 0, data := { idx := 0, label := 0, bits := 0, re := 0, im := 0 } }] }) ∧
  rspWord { status := .ok, cur := 0, data := {} } = 0

/-- R67, R69: `ENC` maps like MAP and advances the cursor modulo 4; field `cur` carries the new value. -/
def Obligations.EncMapsAndAdvances : Prop :=
  (∀ (r : BitVec 62) (b₁ b₀ : Bool), decode (commandWord 0b100 (r ++ (BitVec.ofBool b₁ ++ BitVec.ofBool b₀))) = .enc b₁ b₀) ∧
  (∀ (b₁ b₀ : Bool) (s : State), exec (.enc b₁ b₀) s =
    .next { s with
      cur := BitVec.ofNat 2 ((s.cur.toNat + 1) % 4),
      responses := s.responses ++
        [{ status := .ok, cur := BitVec.ofNat 2 ((s.cur.toNat + 1) % 4),
           data := { idx := 0, label := 0, bits := 0,
                     re := if b₁ then 0xBF800000 else 0x3F800000,
                     im := if b₀ then 0xBF800000 else 0x3F800000 } }] })

/-- R68: the symbol of ENC is the symbol of MAP, in any two states. -/
def Obligations.EncSymbolIsMapSymbol : Prop :=
  ∀ (b₁ b₀ : Bool) (s₁ s₂ : State), ∃ t₁ t₂ r₁ r₂,
    exec (.enc b₁ b₀) s₁ = .next t₁ ∧ t₁.responses = s₁.responses ++ [r₁] ∧
    exec (.map b₁ b₀) s₂ = .next t₂ ∧ t₂.responses = s₂.responses ++ [r₂] ∧
    r₁.status = r₂.status ∧ r₁.data = r₂.data

/-- R70: after BEGIN and any commands that are no BEGIN, every response's `cur`, and `CUR` itself, is the number of ENC
commands so far modulo 4. -/
def Obligations.CursorCountsEncodings : Prop :=
  ∀ (is : List Instr) (s : State), .begin ∉ is → ∃ rs t,
    runPass (.begin :: is) s = some (rs, t) ∧ rs.length = is.length + 1 ∧
    (∀ (j : Nat) (h : j < rs.length), rs[j].cur = BitVec.ofNat 2 ((is.take j).countP isEnc % 4)) ∧
    t.cur = BitVec.ofNat 2 (is.countP isEnc % 4)

/-! ### The classifier -/

/-- R37: the value of a component word, class by class. The last clause, that a finite one is `scaled` units of 2^-149, is
about the model's own representation (log 5, M11). -/
def Obligations.ComponentValueByClass : Prop :=
  ∀ w : Component,
    (expField w = 255 ∧ fracField w ≠ 0 → val w = .nan ∧ finite w = false) ∧
    (expField w = 255 ∧ fracField w = 0 → val w = .inf (w.getLsbD 31) ∧ finite w = false) ∧
    (1 ≤ expField w ∧ expField w ≤ 254 → finite w = true ∧ val w = .rat
      ((-1) ^ (w.extractLsb' 31 1).toNat * 2 ^ ((expField w : ℤ) - 127) * (1 + (fracField w : ℚ) / 2 ^ 23))) ∧
    (expField w = 0 ∧ fracField w ≠ 0 → finite w = true ∧ val w = .rat
      ((-1) ^ (w.extractLsb' 31 1).toNat * 2 ^ (-126 : ℤ) * ((fracField w : ℚ) / 2 ^ 23))) ∧
    (expField w = 0 ∧ fracField w = 0 → finite w = true ∧ val w = .rat 0) ∧
    (finite w = true → val w = .rat ((scaled w : ℚ) / 2 ^ 149))

/-- The distance of R75 for finite components, over the rationals, and what the distance unit computes: that distance counted
in units of 2^-298, which is the model's own choice of representation (log 5, DESIGN CHOICE; M11 allows it). The unit uses the
entry's two component words alone; for a component that is not finite no distance is defined. -/
def Obligations.DistanceUnitIsExact : Prop :=
  (∀ s : Symbol, finite s.re = true → finite s.im = true → ∃ x y : ℚ,
    val s.re = .rat x ∧ val s.im = .rat y ∧
    exactD2 s (readRom hardware 0) = some ((x + 1) ^ 2 + (y + 1) ^ 2) ∧
    exactD2 s (readRom hardware 1) = some ((x + 1) ^ 2 + (y - 1) ^ 2) ∧
    exactD2 s (readRom hardware 2) = some ((x - 1) ^ 2 + (y + 1) ^ 2) ∧
    exactD2 s (readRom hardware 3) = some ((x - 1) ^ 2 + (y - 1) ^ 2) ∧
    ∀ k : Index, exactD2 s (readRom hardware k) = some ((hardware.dist s (readRom hardware k) : ℚ) / 2 ^ 298)) ∧
  (∀ (s : Symbol) (e₁ e₂ : RomEntry), e₁.re = e₂.re → e₁.im = e₂.im → hardware.dist s e₁ = hardware.dist s e₂) ∧
  (∀ (s : Symbol) (k : Index), finite s.re = false ∨ finite s.im = false → exactD2 s (readRom hardware k) = none)

/-- R76: the winner by exact squared distance is the winner by Euclidean distance. -/
def Obligations.SquareRootSelectsSameWinner : Prop :=
  ∀ (s : Symbol) (d : Index → ℚ), (∀ k, exactD2 s (readRom hardware k) = some (d k)) →
    nearest hardware s =
      argmin (Real.sqrt (d 0 : ℝ)) (Real.sqrt (d 1 : ℝ)) (Real.sqrt (d 2 : ℝ)) (Real.sqrt (d 3 : ℝ))

/-- R77: over any totally ordered type the scan returns the least index among those whose distance is minimal. -/
def Obligations.ArgminIsLeastMinimiser : Prop :=
  ∀ (α : Type) [LinearOrder α] (d : Index → α),
    (∀ k, d (argmin (d 0) (d 1) (d 2) (d 3)) ≤ d k) ∧
    (∀ k, (∀ j, d k ≤ d j) → (argmin (d 0) (d 1) (d 2) (d 3)).toNat ≤ k.toNat)

/-- R90: how the running minimum starts does not matter. -/
def Obligations.ArgminIndependentOfStart : Prop :=
  ∀ (start : Index) (d : Index → ℚ),
    argminFrom start (⊤ : WithTop ℚ) (d 0 : WithTop ℚ) (d 1 : WithTop ℚ) (d 2 : WithTop ℚ) (d 3 : WithTop ℚ) =
      argmin (d 0) (d 1) (d 2) (d 3)

/-- R80, R81: `CLS` of a finite symbol answers the winner of the scan over the exact rational distances, its stored label
and the complement of that label; a component with exponent field 255 is ERR_NONFINITE. Nothing is written. -/
def Obligations.ClsClassifiesOrErrs : Prop :=
  (∀ re im : Component, decode (commandWord 0b101 (symbolWord ⟨re, im⟩)) = .cls re im) ∧
  (∀ (re im : Component) (s : State), expField re ≠ 255 → expField im ≠ 255 → ∃ d : Index → ℚ,
    (∀ k, exactD2 ⟨re, im⟩ (readRom hardware k) = some (d k)) ∧
    exec (.cls re im) s = .next { s with responses := s.responses ++
      [{ status := .ok, cur := s.cur,
         data := { idx := argmin (d 0) (d 1) (d 2) (d 3),
                   label := (readRom hardware (argmin (d 0) (d 1) (d 2) (d 3))).label,
                   bits := ~~~(readRom hardware (argmin (d 0) (d 1) (d 2) (d 3))).label,
                   re := 0, im := 0 } }] }) ∧
  (∀ (re im : Component) (s : State), expField re = 255 ∨ expField im = 255 →
    exec (.cls re im) s = .next { s with responses := s.responses ++
      [{ status := .errNonfinite, cur := s.cur, data := { idx := 0, label := 0, bits := 0, re := 0, im := 0 } }] })

/-- R82: the winner in closed form, by the signs of the two values, and the signs on the words. -/
def Obligations.ClsClosedForm : Prop :=
  ∀ (re im : Component) (s : State), finite re = true → finite im = true → ∃ x y : ℚ,
    val re = .rat x ∧ val im = .rat y ∧
    (0 < x ↔ re.getLsbD 31 = false ∧ re.extractLsb' 0 31 ≠ 0) ∧
    (0 < y ↔ im.getLsbD 31 = false ∧ im.extractLsb' 0 31 ≠ 0) ∧
    exec (.cls re im) s = .next { s with responses := s.responses ++
      [{ status := .ok, cur := s.cur,
         data := { idx := BitVec.ofNat 2 (2 * (if 0 < x then 1 else 0) + (if 0 < y then 1 else 0)),
                   label := pairOf (0 < x) (0 < y), bits := pairOf (x ≤ 0) (y ≤ 0) } }] }

/-- R86: the squared distances among the ROM points, and each point's winner is itself. -/
def Obligations.RomPointsAreTheirOwnNearest : Prop :=
  ([0, 1, 2, 3].map fun j => [0, 1, 2, 3].map fun k =>
      exactD2 ⟨(readRom hardware j).re, (readRom hardware j).im⟩ (readRom hardware k)) =
    [[some 0, some 4, some 4, some 8], [some 4, some 0, some 8, some 4],
     [some 4, some 8, some 0, some 4], [some 8, some 4, some 4, some 0]] ∧
  ∀ j : Index, nearest hardware ⟨(readRom hardware j).re, (readRom hardware j).im⟩ = j

/-! ### Errors -/

/-- R42, R107: a reserved opcode with any argument answers ERR_OP and writes nothing. -/
def Obligations.ReservedOpcodesAnswerErrOp : Prop :=
  (∀ r : BitVec 64, decode (commandWord 0b110 r) = .reserved6 ∧ decode (commandWord 0b111 r) = .reserved7) ∧
  (∀ s : State, exec .reserved6 s = .next { s with responses := s.responses ++
    [{ status := .errOp, cur := s.cur, data := { idx := 0, label := 0, bits := 0, re := 0, im := 0 } }] }) ∧
  (∀ s : State, exec .reserved7 s = .next { s with responses := s.responses ++
    [{ status := .errOp, cur := s.cur, data := { idx := 0, label := 0, bits := 0, re := 0, im := 0 } }] })

/-- R105: each error has its one cause and its code; every other command answers OK; no other code is produced. -/
def Obligations.EachErrorHasItsCause : Prop :=
  (∀ (i : Instr) (s : State), ∃ t r, exec i s = .next t ∧ t.responses = s.responses ++ [r] ∧
    (r.status = .errLen ↔ ∃ len c₁ c₂, i = .mapc len c₁ c₂ ∧ len ≠ 2) ∧
    (r.status = .errOp ↔ i = .reserved6 ∨ i = .reserved7) ∧
    (r.status = .errNonfinite ↔ ∃ re im, i = .cls re im ∧ (expField re = 255 ∨ expField im = 255))) ∧
  statusCode .ok = 0b000 ∧ statusCode .errLen = 0b001 ∧ statusCode .errOp = 0b010 ∧ statusCode .errNonfinite = 0b011 ∧
  ∀ r : Rsp, ((rspWord r).extractLsb' 72 3).toNat < 4

/-- R108: a command that ends in an error has no effect but its response, whose data fields are 0 and whose `cur` is `CUR`. -/
def Obligations.ErrorLeavesNoTrace : Prop :=
  ∀ (s t : State) (w : CmdWord) (rest : List Event) (r : Rsp),
    step { s with events := .command w :: rest } = .next t → t.responses = s.responses ++ [r] → r.status ≠ .ok →
    t = { s with events := rest, responses := s.responses ++ [r] } ∧ r.cur = s.cur ∧
      r.data = { idx := 0, label := 0, bits := 0, re := 0, im := 0 }

/-! ### The machine as a whole -/

/-- R14: the answers to one command word in any two states agree in every field but `cur`, and `cur` is `CUR` after it. -/
def Obligations.AnswersIgnoreTheCursor : Prop :=
  ∀ (w : CmdWord) (s₁ s₂ : State) (rest₁ rest₂ : List Event), ∃ t₁ t₂ r₁ r₂,
    step { s₁ with events := .command w :: rest₁ } = .next t₁ ∧ t₁.responses = s₁.responses ++ [r₁] ∧
    step { s₂ with events := .command w :: rest₂ } = .next t₂ ∧ t₂.responses = s₂.responses ++ [r₂] ∧
    r₁.status = r₂.status ∧ r₁.data = r₂.data ∧ r₁.cur = t₁.cur ∧ r₂.cur = t₂.cur

/-- R13, R73: only BEGIN and ENC write the cursor. -/
def Obligations.OnlyBeginAndEncWriteTheCursor : Prop :=
  ∀ (i : Instr) (s : State), ∃ t, exec i s = .next t ∧ t.events = s.events ∧
    (i = .begin → t.cur = 0) ∧
    (isEnc i = true → t.cur.toNat = (s.cur.toNat + 1) % 4) ∧
    (i ≠ .begin → isEnc i = false → t.cur = s.cur)

/-- R14, R27, R126: the same commands, from any two states and with resets between them at any places, get the same statuses
and data fields in the same order. -/
def Obligations.AnswersIgnoreStartAndResets : Prop :=
  ∀ (es₁ es₂ : List Event) (s₁ s₂ : State), commandsOf es₁ = commandsOf es₂ → ∃ t₁ t₂ rs₁ rs₂,
    runFor es₁.length { s₁ with events := es₁ } = .next t₁ ∧ t₁.responses = s₁.responses ++ rs₁ ∧
    runFor es₂.length { s₂ with events := es₂ } = .next t₂ ∧ t₂.responses = s₂.responses ++ rs₂ ∧
    rs₁.map (fun r => (r.status, r.data)) = rs₂.map (fun r => (r.status, r.data))

/-- R34, R37: every step keeps the invariant that all responses given have one of the legal shapes. -/
def Obligations.EveryStepKeepsAnswersLegal : Prop :=
  ∀ s t : State, s.Inv → step s = .next t → t.Inv

/-- The invariant holds after reset. -/
def Obligations.ResetAnswersLegal : Prop := State.reset.Inv

/-! ### Whole-string passes -/

/-- R96: the encode pass gives `floor(L/2)` symbols, the i-th from characters 2i and 2i+1, and leaves `CUR = N mod 4`. -/
def Obligations.EncodePassMapsEveryPair : Prop :=
  ∀ (text : List CharCode) (s : State), ∃ out t, encodePass text s = some (out, t) ∧
    out.length = text.length / 2 ∧
    (∀ (j : Nat) (h : j < text.length / 2), out[j]? =
      some (sym (c2b hardware (text[2 * j]'(by omega))) (c2b hardware (text[2 * j + 1]'(by omega))))) ∧
    t.cur = BitVec.ofNat 2 (text.length / 2 % 4) ∧ t.events = s.events

/-- R97: the decode pass gives two characters per symbol, from the complement of the nearest point's label, or no result
where some symbol is not finite; it leaves `CUR` as it was. -/
def Obligations.DecodePassReadsEverySymbol : Prop :=
  ∀ (symbols : List Symbol) (s : State), ∃ result t, decodePass symbols s = some (result, t) ∧
    t.cur = s.cur ∧ t.events = s.events ∧
    ((∃ x ∈ symbols, finite x.re = false ∨ finite x.im = false) → result = none) ∧
    ((∀ x ∈ symbols, finite x.re = true ∧ finite x.im = true) → ∃ text, result = some text ∧
      text.length = 2 * symbols.length ∧
      ∀ (j : Nat) (h : j < symbols.length),
        text[2 * j]? = some (b2c hardware (!(readRom hardware (nearest hardware symbols[j])).label.getLsbD 1)) ∧
        text[2 * j + 1]? = some (b2c hardware (!(readRom hardware (nearest hardware symbols[j])).label.getLsbD 0)))

/-- R98, R100, R103: decoding what was encoded gives the text back, without the last character of an odd text, every
character other than '1' read as '0'; from any two states. -/
def Obligations.DecodeOfEncodeRestoresText : Prop :=
  ∀ (text : List CharCode) (s s' : State), ∃ symbols t out t',
    encodePass text s = some (symbols, t) ∧ decodePass symbols s' = some (some out, t') ∧
    out = (text.take (2 * (text.length / 2))).map (fun c => if c = 0x31 then 0x31 else 0x30) ∧
    ((∀ c ∈ text, c = 0x30 ∨ c = 0x31) → text.length % 2 = 0 → out = text)

/-- R101: texts of equal length pass through the same cursor values, whatever they say and wherever they start. -/
def Obligations.CursorSequenceIgnoresBits : Prop :=
  ∀ (text₁ text₂ : List CharCode) (s₁ s₂ : State), text₁.length = text₂.length → ∃ rs₁ rs₂ t₁ t₂,
    runPass (encodeCommands text₁) s₁ = some (rs₁, t₁) ∧ runPass (encodeCommands text₂) s₂ = some (rs₂, t₂) ∧
    rs₁.map (fun r => r.cur) = rs₂.map (fun r => r.cur) ∧ t₁.cur = t₂.cur
end

