-- ==== Sys2Proof/Laws/Decode.lean ====
section
/-! SUPPORT. The fields of a command word built from its parts. -/

namespace Sys2Proof

/-- A bit of a command word: below bit 64 it is the argument's, from bit 64 on the opcode's. -/
theorem commandWord_bit (op : BitVec 3) (arg : BitVec 64) (i : Nat) :
    (commandWord op arg).getLsbD i = if i < 64 then arg.getLsbD i else op.getLsbD (i - 64) :=
  BitVec.getLsbD_append

@[simp] theorem opField_commandWord (op : BitVec 3) (arg : BitVec 64) : opField (commandWord op arg) = op := by
  ext i h
  simp [opField, commandWord_bit, BitVec.getElem_extractLsb', BitVec.getLsbD_eq_getElem h]

@[simp] theorem argField_commandWord (op : BitVec 3) (arg : BitVec 64) : argField (commandWord op arg) = arg := by
  ext i h
  simp [argField, commandWord_bit, BitVec.getElem_extractLsb', h]

/-- A command word is its opcode and its argument. -/
theorem commandWord_fields (w : CmdWord) : commandWord (opField w) (argField w) = w := by
  ext i h
  rw [← BitVec.getLsbD_eq_getElem h, commandWord_bit, opField, argField]
  simp only [BitVec.getLsbD_extractLsb', Nat.zero_add]
  split
  · simp [*]
  · rw [show 64 + (i - 64) = i by omega]
    simp [show i - 64 < 3 by omega, BitVec.getLsbD_eq_getElem h]

/-- The decoder takes every number the port can carry. -/
theorem decodeNumber_of_lt {n : Nat} (h : n < 2 ^ 67) : decodeNumber n = .ok (decode (BitVec.ofNat 67 n)) :=
  if_pos h

end Sys2Proof
end

