-- ==== Sys2Proof/Laws/Float.lean ====
section
/-! SUPPORT. The component words the block itself holds, and the distance of this hardware. -/

namespace Sys2Proof.Machine

/-- +1.0 is 2^149 least subnormals (spec/30_encoding.md R38). -/
theorem scaled_pos1 : scaled 0x3F800000 = 2 ^ 149 := by decide

/-- -1.0 is as many, below zero (R38). -/
theorem scaled_neg1 : scaled 0xBF800000 = -2 ^ 149 := by decide

/-- `DIST = EXACT` (spec/43_classifier.md R83). -/
@[simp] theorem hardware_dist : hardware.dist = distExact := rfl

/-- The exponent field has 8 bits. -/
theorem expField_lt (w : Component) : expField w < 256 := (w.extractLsb' 23 8).isLt

/-- `finite(w)` is `e != 255` (spec/30_encoding.md R37). -/
theorem finite_iff (w : Component) : finite w = true ↔ expField w ≠ 255 := by simp [finite]

end Sys2Proof.Machine
end

