-- ==== Sys2Proof/Laws/State.lean ====
section
/-! SUPPORT. One lemma per field per update of the state. -/

namespace Sys2Proof.Machine

@[simp] theorem setCur_cur (s : State) (v : Index) : (s.setCur v).cur = v := rfl
@[simp] theorem setCur_events (s : State) (v : Index) : (s.setCur v).events = s.events := rfl
@[simp] theorem setCur_responses (s : State) (v : Index) : (s.setCur v).responses = s.responses := rfl

@[simp] theorem setEvents_cur (s : State) (es : List Event) : (s.setEvents es).cur = s.cur := rfl
@[simp] theorem setEvents_events (s : State) (es : List Event) : (s.setEvents es).events = es := rfl
@[simp] theorem setEvents_responses (s : State) (es : List Event) : (s.setEvents es).responses = s.responses := rfl

@[simp] theorem emit_cur (s : State) (r : Rsp) : (s.emit r).cur = s.cur := rfl
@[simp] theorem emit_events (s : State) (r : Rsp) : (s.emit r).events = s.events := rfl
@[simp] theorem emit_responses (s : State) (r : Rsp) : (s.emit r).responses = s.responses ++ [r] := rfl

@[simp] theorem setEvents_setEvents (s : State) (a b : List Event) : (s.setEvents a).setEvents b = s.setEvents b := rfl
@[simp] theorem setEvents_self (s : State) : s.setEvents s.events = s := rfl

end Sys2Proof.Machine
end

