-- ==== Sys2Proof/Laws/Ops.lean ====
section
/-! SUPPORT. What each shared operation can do, said once. There is no memory operation that writes (spec/20_memory.md R22);
the one that reads is `readRom`. -/

namespace Sys2Proof.Machine

theorem respondOk_next {d : Data} {s t : State} (h : respondOk d s = .next t) :
    t.cur = s.cur ∧ t.events = s.events ∧ t.responses = s.responses ++ [⟨.ok, s.cur, d⟩] := by
  cases h; exact ⟨rfl, rfl, rfl⟩

theorem raise_next {e : BlockError} {s t : State} (h : raise e s = .next t) :
    t.cur = s.cur ∧ t.events = s.events ∧ t.responses = s.responses ++ [⟨errorStatus e, s.cur, {}⟩] := by
  cases h; exact ⟨rfl, rfl, rfl⟩

theorem applyReset_next {s t : State} (h : applyReset s = .next t) : t = s.setCur 0 := by
  cases h; rfl

theorem idle_next {s t : State} (h : idle s = .next t) : t = s := by
  cases h; rfl

theorem errorStatus_ne_ok (e : BlockError) : errorStatus e ≠ .ok := by
  cases e <;> decide

@[simp] theorem readRom_zero : readRom hardware 0 = ⟨0, 0, 0xBF800000, 0xBF800000⟩ := rfl
@[simp] theorem readRom_one : readRom hardware 1 = ⟨1, 1, 0xBF800000, 0x3F800000⟩ := rfl
@[simp] theorem readRom_two : readRom hardware 2 = ⟨2, 2, 0x3F800000, 0xBF800000⟩ := rfl
@[simp] theorem readRom_three : readRom hardware 3 = ⟨3, 3, 0x3F800000, 0x3F800000⟩ := rfl

/-- The ROM of this hardware has the form R23 asks for. -/
theorem hardware_romWf : romWf hardware = true := by decide

/-- Everything a command can do: one response, field `cur` the new `CUR`, and nothing else. -/
theorem exec_emits (i : Instr) (s : State) :
    ∃ st cur d, exec i s = .next ((s.setCur cur).emit ⟨st, cur, d⟩) := by
  cases i with
  | romrd k => exact ⟨.ok, s.cur, _, rfl⟩
  | map a b => exact ⟨.ok, s.cur, _, rfl⟩
  | mapc len a b =>
    by_cases h : len = 2
    · exact ⟨.ok, s.cur, _, by subst h; rfl⟩
    · exact ⟨.errLen, s.cur, _, by simp only [exec, execMapc, ne_eq, h, not_false_eq_true, if_true]; rfl⟩
  | begin => exact ⟨.ok, 0, _, rfl⟩
  | enc a b => exact ⟨.ok, advance s.cur, _, rfl⟩
  | cls re im =>
    by_cases h : (finite re && finite im) = true
    · exact ⟨.ok, s.cur, _, by simp only [exec, execCls, h, if_true]; rfl⟩
    · exact ⟨.errNonfinite, s.cur, _, by simp only [exec, execCls, h]; rfl⟩
  | reserved6 => exact ⟨.errOp, s.cur, _, rfl⟩
  | reserved7 => exact ⟨.errOp, s.cur, _, rfl⟩

end Sys2Proof.Machine
end

