-- ==== Sys2Proof/Laws/Passes.lean ====
section
/-! SUPPORT. Runs in parts. -/

namespace Sys2Proof.Machine

@[simp] theorem runFor_zero (s : State) : runFor 0 s = .next s := rfl

/-- A run goes on from where its first step leads. -/
theorem runFor_succ_of_next {n : Nat} {s t : State} (h : step s = .next t) : runFor (n + 1) s = runFor n t := by
  simp [runFor, h]

/-- A run of `m + n` steps is a run of `m` and then one of `n`. -/
theorem runFor_add_of_next {m n : Nat} {s t : State} (h : runFor m s = .next t) : runFor (m + n) s = runFor n t := by
  induction m generalizing s with
  | zero => cases h; rw [Nat.zero_add]
  | succ m ih =>
    rw [Nat.add_right_comm]
    simp only [runFor] at h ⊢
    split at h <;> first | exact ih h | cases h

@[simp] theorem step_command (s : State) (w : CmdWord) (rest : List Event) :
    step (s.setEvents (.command w :: rest)) = exec (decode w) (s.setEvents rest) := rfl

@[simp] theorem step_reset (s : State) (rest : List Event) :
    step (s.setEvents (.reset :: rest)) = .next ((s.setEvents rest).setCur 0) := rfl

end Sys2Proof.Machine
end

