-- ==== Sys2Proof/Laws/PerInstr.lean ====
section
/-! SUPPORT. Facts stated for every command as syntax, one lemma per constructor. -/

namespace Sys2Proof.Laws.EncodesToRow

/-- The encoding of a command lies in its row of spec/opcode_table.json: `(cmd & mask) == match`. -/
def Statement (i : Instr) : Prop := encode i &&& rowMask = rowMatch i

/-- The argument of a word does not reach its opcode. -/
theorem commandWord_masked (op : BitVec 3) (arg : BitVec 64) :
    commandWord op arg &&& rowMask = commandWord op 0 := by
  have hm : rowMask = commandWord 7 0 := by decide
  have h7 : ∀ j < 3, (7 : BitVec 3).getLsbD j = true := by decide
  ext i h
  simp only [← BitVec.getLsbD_eq_getElem h, hm, BitVec.getLsbD_and, commandWord_bit]
  split
  · simp
  · simpa using fun _ => h7 (i - 64) (by omega)

theorem romrd (k : Index) : Statement (.romrd k) := commandWord_masked _ _
theorem map (a b : Bool) : Statement (.map a b) := commandWord_masked _ _
theorem mapc (len a b : BitVec 8) : Statement (.mapc len a b) := commandWord_masked _ _
theorem begin : Statement .begin := commandWord_masked _ _
theorem enc (a b : Bool) : Statement (.enc a b) := commandWord_masked _ _
theorem cls (re im : Component) : Statement (.cls re im) := commandWord_masked _ _
theorem reserved6 : Statement .reserved6 := commandWord_masked _ _
theorem reserved7 : Statement .reserved7 := commandWord_masked _ _

end Sys2Proof.Laws.EncodesToRow
end

