-- ==== Sys2Proof/Tests/Slice0.lean ====
section
/-! SUPPORT. Tests. Expected words are those of spec/95_test_vectors.md, whose ids are named; each test is about one step.
Then one witness for the hypotheses of each statement that has any. -/

namespace Sys2Proof.Machine.Tests

/-! ### Written commands: each check refuses an ill-formed term -/

theorem test_wf_index_out_of_range : (Written.romrd 4).wf = false := by decide
theorem test_wf_text_too_short : (Written.map (.text [0x31])).wf = false := by decide
theorem test_wf_text_not_binary : (Written.enc (.text [0x31, 0x78])).wf = false := by decide
theorem test_wf_length_out_of_range : (Written.mapc 256 0x31 0x31).wf = false := by decide
theorem test_wf_first_code_out_of_range : (Written.mapc 2 256 0x31).wf = false := by decide
theorem test_wf_second_code_out_of_range : (Written.mapc 2 0x31 256).wf = false := by decide
theorem test_wf_real_not_representable : (Written.cls (.real (1 / 3)) (.word 0)).wf = false := by decide +kernel
theorem test_wf_real_too_large : (Written.cls (.word 0) (.real (2 ^ 128))).wf = false := by decide +kernel
/-- C5: `CLS (0.25, -2.5)`. -/
theorem test_wf_accepts : (Written.cls (.real (1 / 4)) (.real (-5 / 2))).toInstr = some (.cls 0x3E800000 0xC0200000) := by
  decide +kernel

/-- E7: `ENC "10"`. -/
theorem test_written_enc : (Written.enc (.text [0x31, 0x30])).toInstr.map encode = some 0x40000000000000002 := by decide
/-- M3: `MAP 0b10`. -/
theorem test_written_map : (Written.map (.bits 0b10)).toInstr.map encode = some 0x10000000000000002 := by decide
/-- N2: `CLS 0x3F800000, 0xFF800000`. -/
theorem test_written_cls : (Written.cls (.word 0x3F800000) (.word 0xFF800000)).toInstr.map encode = some 0x53F800000FF800000 := by
  decide

/-! ### Decoding -/

/-- K9. -/
theorem test_decode_romrd : decode 0x0FFFFFFFFFFFFFFFD = .romrd 1 := by decide
/-- M3. -/
theorem test_decode_map : decode 0x10000000000000002 = .map true false := by decide
/-- M16. -/
theorem test_decode_mapc : decode 0x2ABCDEF0123023130 = .mapc 2 0x31 0x30 := by decide
/-- B5. -/
theorem test_decode_begin : decode 0x3DEADBEEF00000001 = .begin := by decide
/-- E6. -/
theorem test_decode_enc : decode 0x40000000000000001 = .enc false true := by decide
/-- C5. -/
theorem test_decode_cls : decode 0x53E800000C0200000 = .cls 0x3E800000 0xC0200000 := by decide
/-- X3. -/
theorem test_decode_reserved6 : decode 0x63F800000BF800000 = .reserved6 := by decide
/-- X4. -/
theorem test_decode_reserved7 : decode 0x7FFFFFFFFFFFFFFFF = .reserved7 := by decide
theorem test_decode_wider_than_port : decodeTableWord 72 0x80000000000000000 = none := by decide
/-- M13. -/
theorem test_encode_mapc : encode (.mapc 255 0x30 0x30) = 0x20000000000FF3030 := by decide

/-! ### One step of each command -/

/-- The response word and the next `CUR` of one command word, in the state `CUR = c`. -/
def answer (c : Index) (w : CmdWord) : Option (RspWord × Index) :=
  match step (({ State.reset with cur := c } : State).withFetchWord 72 w.toNat) with
  | .next t => t.responses.getLast?.map fun r => (rspWord r, t.cur)
  | .fault _ => none
  | .refused _ => none

/-- K6. -/
theorem test_romrd_at_cursor_3 : answer 3 0x00000000000000001 = some (0x0D4BF8000003F800000, 3) := by decide
/-- K3. -/
theorem test_romrd_positive_real : answer 0 0x00000000000000002 = some (0x0283F800000BF800000, 0) := by decide
/-- M2. -/
theorem test_map_first_bit_is_real : answer 0 0x10000000000000001 = some (0x0003F800000BF800000, 0) := by decide
/-- M4a. -/
theorem test_map_keeps_cursor : answer 3 0x10000000000000002 = some (0x0C0BF8000003F800000, 3) := by decide
/-- M9c. -/
theorem test_mapc_code_not_masked : answer 2 0x2000000000002B131 = some (0x0803F800000BF800000, 2) := by decide
/-- M12. -/
theorem test_mapc_length_3 : answer 2 0x20000000000033131 = some (0x1800000000000000000, 2) := by decide
/-- B4. -/
theorem test_begin_forgets : answer 3 0x30000000000000000 = some (0x0000000000000000000, 0) := by decide
/-- E4. -/
theorem test_enc_wraps : answer 3 0x40000000000000002 = some (0x000BF8000003F800000, 0) := by decide
/-- E9. -/
theorem test_enc_shows_new_cursor : answer 1 0x4FFFFFFFFFFFFFFFD = some (0x0803F800000BF800000, 2) := by decide
/-- T11: no tie under exact distances. -/
theorem test_cls_near_tie : answer 0 0x5308000003F800000 = some (0x03C0000000000000000, 0) := by decide
/-- N6. -/
theorem test_cls_infinite : answer 1 0x5000000007F800000 = some (0x3400000000000000000, 1) := by decide
/-- X3. -/
theorem test_reserved6 : answer 2 0x63F800000BF800000 = some (0x2800000000000000000, 2) := by decide
/-- X4. -/
theorem test_reserved7 : answer 3 0x7FFFFFFFFFFFFFFFF = some (0x2C00000000000000000, 3) := by decide
/-- T14, T12, T1, T8: extremes, subnormals, a tie, negative zeros. -/
theorem test_nearest_corners : (nearest hardware ⟨0x7F7FFFFF, 0xFF7FFFFF⟩ = 2 ∧ nearest hardware ⟨1, 0x80000001⟩ = 2) ∧
    nearest hardware ⟨0, 0x3F800000⟩ = 1 ∧ nearest hardware ⟨0x80000000, 0x80000000⟩ = 0 := by decide
/-- Z3. -/
theorem test_reset_event : step ⟨2, [.reset], []⟩ = .next ⟨0, [], []⟩ := rfl

/-! ### Witnesses: the hypotheses of each statement can be met -/

theorem witness_StepExecutesPlacedWord : decodeTableWord 72 0x53F800000BF800000 = some (.cls 0x3F800000 0xBF800000) := by
  decide
theorem witness_ReservedBitsAreIgnored : (0x00000000000000001 : CmdWord) &&& usedMask (opField 0x00000000000000001) =
    0x0FFFFFFFFFFFFFFFD &&& usedMask (opField 0x0FFFFFFFFFFFFFFFD) := by decide
/-- Each clause at a boundary: the last number in range and the first out of it, a text and two bits, a text and a real that
do not fit. -/
theorem witness_WrittenCommandsStandForTheirValues :
    (3 < 4 ∧ 4 ≤ 4 ∧ 255 < 256 ∧ 256 ≤ 256) ∧
    ((PairOperand.text [0x31, 0x30]).toBits = some (true, false) ∧ (PairOperand.bits 0b01).toBits = some (false, true) ∧
      (PairOperand.text [0x31, 0x78]).toBits = none) ∧
    ((ComponentOperand.real (-5 / 2)).toWord = some 0xC0200000 ∧ (ComponentOperand.word 0x7FC00000).toWord = some 0x7FC00000 ∧
      (ComponentOperand.real (1 / 3)).toWord = none) ∧
    val 0xC0200000 = .rat (-5 / 2) := by decide +kernel
theorem witness_MapcMapsTwoCharactersOrErrs : (0 : BitVec 8) ≠ 2 ∧ (1 : BitVec 8) ≠ 2 ∧ (3 : BitVec 8) ≠ 2 ∧ (255 : BitVec 8) ≠ 2 := by
  decide
theorem witness_CursorCountsEncodings : Instr.begin ∉ [.enc true false, .romrd 0, .enc true true, .reserved6] := by decide
/-- The boundary words of every class of R37. -/
theorem witness_ComponentValueByClass :
    (expField 0x7F800001 = 255 ∧ fracField 0x7F800001 ≠ 0) ∧ (expField 0xFF800000 = 255 ∧ fracField 0xFF800000 = 0) ∧
    (expField 0x00800000 = 1 ∧ expField 0x7F7FFFFF = 254) ∧
    (expField 0x00000001 = 0 ∧ fracField 0x00000001 ≠ 0 ∧ expField 0x807FFFFF = 0 ∧ fracField 0x807FFFFF ≠ 0) ∧
    (expField 0x80000000 = 0 ∧ fracField 0x80000000 = 0) ∧ finite 0x7F7FFFFF = true := by decide
theorem witness_DistanceUnitIsExact : (finite 0x00000001 = true ∧ finite 0xFF7FFFFF = true) ∧
    (readRom hardware 2).re = (readRom hardware 3).re ∧ finite 0x7F800000 = false := by decide
theorem witness_SquareRootSelectsSameWinner : ∃ d : Index → ℚ, ∀ k, exactD2 ⟨0, 0⟩ (readRom hardware k) = some (d k) :=
  ⟨fun _ => 2, by decide +kernel⟩
theorem witness_ArgminIsLeastMinimiser : ∃ (d : Index → Int) (k : Index), (∀ j, d k ≤ d j) ∧ argmin (d 0) (d 1) (d 2) (d 3) ≠ k :=
  ⟨fun j => if j = 0 then 2 else 1, 3, by decide⟩
theorem witness_ClsClassifiesOrErrs : (expField 0x7F7FFFFF ≠ 255 ∧ expField 0x80000000 ≠ 255) ∧ expField 0x7F800000 = 255 := by
  decide
theorem witness_ClsClosedForm : finite 0x00000001 = true ∧ finite 0x80000000 = true := by decide
theorem witness_ErrorLeavesNoTrace : ∃ (s t : State) (r : Rsp),
    step { s with events := [.command 0x7FFFFFFFFFFFFFFFF] } = .next t ∧ t.responses = s.responses ++ [r] ∧ r.status ≠ .ok :=
  ⟨⟨3, [], []⟩, ⟨3, [], [⟨.errOp, 3, {}⟩]⟩, ⟨.errOp, 3, {}⟩, rfl, rfl, by decide⟩
theorem witness_OnlyBeginAndEncWriteTheCursor :
    isEnc (.enc false true) = true ∧ Instr.mapc 3 0 0 ≠ .begin ∧ isEnc (.mapc 3 0 0) = false := by decide
theorem witness_AnswersIgnoreStartAndResets :
    commandsOf [.command 1, .reset, .command 2] = commandsOf [.reset, .command 1, .command 2] := by decide
theorem witness_EveryStepKeepsAnswersLegal : ∃ s t : State, s.Inv ∧ s.responses ≠ [] ∧ step s = .next t := by
  refine ⟨⟨3, [.reset], [⟨.errLen, 1, {}⟩]⟩, ⟨0, [], [⟨.errLen, 1, {}⟩]⟩, ?_, by decide, rfl⟩
  intro r hr
  cases List.mem_singleton.1 hr
  exact rfl
theorem witness_EncodePassMapsEveryPair : 1 < ([0x30, 0x31, 0x31, 0x30, 0x31] : List CharCode).length / 2 := by decide
theorem witness_DecodePassReadsEverySymbol :
    (∃ x ∈ [sym true false, ⟨0x7FC00000, 0⟩], finite x.re = false ∨ finite x.im = false) ∧
    (∀ x ∈ [sym true false, ⟨0, 0x80000000⟩], finite x.re = true ∧ finite x.im = true) := by decide
theorem witness_DecodeOfEncodeRestoresText : ∃ text : List CharCode, (∀ c ∈ text, c = 0x30 ∨ c = 0x31) ∧ text ≠ [] ∧
    text.length % 2 = 0 := ⟨[0x30, 0x31], by decide⟩
theorem witness_CursorSequenceIgnoresBits : ([0x30, 0x31, 0x31] : List CharCode).length = ([0x78, 0x31, 0x00] : List CharCode).length := rfl

end Sys2Proof.Machine.Tests
end

section
/-! What a command answers, as a function of `CUR` and the command alone (spec/00_scope.md R8). -/

namespace Sys2Proof.Machine

/-- A response with status OK (R34). -/
def okRsp (cur : Index) (d : Data) : Rsp := { status := .ok, cur := cur, data := d }

/-- The response to an error (spec/60_exceptions.md R108). -/
def errorRsp (cur : Index) (e : BlockError) : Rsp := { status := errorStatus e, cur := cur, data := {} }

/-- The one response to a command at the cursor value `cur`; its field `cur` is the next `CUR` (R8). That it is what `exec`
answers is `exec_eq_emit_responseTo`. -/
def responseTo (cur : Index) : Instr → Rsp
  | .romrd k => okRsp cur (entryData (readRom hardware k))
  | .map bFirst bSecond => okRsp cur (symbolData (sym bFirst bSecond))
  | .mapc len cFirst cSecond =>
    if len ≠ 2 then errorRsp cur .len
    else okRsp cur (symbolData (sym (c2b hardware cFirst) (c2b hardware cSecond)))
  | .begin => okRsp 0 {}
  | .enc bFirst bSecond => okRsp (advance cur) (symbolData (sym bFirst bSecond))
  | .cls re im =>
    if finite re && finite im then okRsp cur (winnerData hardware (nearest hardware { re := re, im := im }))
    else errorRsp cur .nonfinite
  | .reserved6 => errorRsp cur .op
  | .reserved7 => errorRsp cur .op

/-- A command writes `CUR` and gives one response, both fixed by `CUR` and the command, and does nothing else. -/
theorem exec_eq_emit_responseTo (i : Instr) (s : State) :
    exec i s = .next ((s.setCur (responseTo s.cur i).cur).emit (responseTo s.cur i)) := by
  cases i with
  | romrd k => rfl
  | map a b => rfl
  | mapc len a b =>
    simp only [exec, execMapc, responseTo]
    split <;> rfl
  | begin => rfl
  | enc a b => rfl
  | cls re im =>
    simp only [exec, execCls, responseTo]
    split <;> rfl
  | reserved6 => rfl
  | reserved7 => rfl

end Sys2Proof.Machine
end

section
/-! The shape of a step, and the loading of a word (spec/00_scope.md R8, spec/44_passes.md R95). -/

namespace Sys2Proof.Machine

/-- The step on a placed word executes the decoding of the bits the port carries, at the state before the placing. -/
theorem step_withFetchWord (s : State) (nbits w : Nat) :
    step (s.withFetchWord nbits w) = exec (decode (BitVec.ofNat 67 (w % 2 ^ nbits))) s := by
  rw [State.withFetchWord, presentWord, step_command, setEvents_self]

/-- A table word that is a command fits the port, and is the command its bits decode to. -/
theorem decode_of_decodeTableWord {nbits w : Nat} {i : Instr} (h : decodeTableWord nbits w = some i) :
    decode (BitVec.ofNat 67 (w % 2 ^ nbits)) = i := by
  by_cases hlt : w % 2 ^ nbits < 2 ^ 67
  · simpa [decodeTableWord, decodeNumber_of_lt hlt] using h
  · have hreject : decodeNumber (w % 2 ^ nbits) = .error .widerThanPort := if_neg hlt
    simp [decodeTableWord, hreject] at h

/-- Settles O5: `responseTo` of the decoded word is the function. -/
theorem stepIsOneTotalFunction : Obligations.StepIsOneTotalFunction := by
  refine ⟨⟨fun cur w => responseTo cur (decode w), fun s w rest => ?_⟩, fun s rest => step_reset s rest⟩
  exact (step_command s w rest).trans (exec_eq_emit_responseTo (decode w) (s.setEvents rest))

/-- Settles O3: it is the model's equation for a step on a presented command. -/
theorem stepExecutesDecodedCommand : Obligations.StepExecutesDecodedCommand :=
  step_command

/-- Settles O4: the placed word decodes to the command, and the placing is undone by taking the event. -/
theorem stepExecutesPlacedWord : Obligations.StepExecutesPlacedWord := by
  intro s nbits w i h
  rw [step_withFetchWord, decode_of_decodeTableWord h]

end Sys2Proof.Machine
end

section
/-! The cursor (spec/10_state.md R13, R14): which commands write it, and that no answer but its field `cur` depends on it. -/

namespace Sys2Proof.Machine

/-- The next `CUR` of a command (R13): `BEGIN` zeroes it (R65), `ENC` advances it (R67), no other command writes it. That it is
what `exec` writes is `responseTo_eq_with_nextCur`. -/
def nextCur (cur : Index) : Instr → Index
  | .begin => 0
  | .enc _ _ => advance cur
  | .romrd _ | .map _ _ | .mapc _ _ _ | .cls _ _ | .reserved6 | .reserved7 => cur

/-- `CUR` reaches a response in its field `cur` only, which is the next `CUR` (R14). -/
theorem responseTo_eq_with_nextCur (cur : Index) (i : Instr) :
    responseTo cur i = { responseTo 0 i with cur := nextCur cur i } := by
  cases i with
  | mapc len a b =>
    simp only [responseTo]
    split <;> rfl
  | cls re im =>
    simp only [responseTo]
    split <;> rfl
  | romrd | map | begin | enc | reserved6 | reserved7 => rfl

theorem responseTo_cur (cur : Index) (i : Instr) : (responseTo cur i).cur = nextCur cur i :=
  congrArg Rsp.cur (responseTo_eq_with_nextCur cur i)

/-- A response without its field `cur`: the fields R14 speaks of. -/
def statusAndData (r : Rsp) : Status × Data := (r.status, r.data)

theorem statusAndData_responseTo (cur : Index) (i : Instr) :
    statusAndData (responseTo cur i) = statusAndData (responseTo 0 i) :=
  (congrArg statusAndData (responseTo_eq_with_nextCur cur i)).trans rfl

/-- The advance of the 2-bit register is the advance modulo 4 (R69). -/
theorem advance_toNat (cur : Index) : (advance cur).toNat = (cur.toNat + 1) % 4 :=
  BitVec.toNat_add cur 1

theorem nextCur_enc_toNat (cur : Index) {i : Instr} (henc : isEnc i = true) :
    (nextCur cur i).toNat = (cur.toNat + 1) % 4 := by
  cases i with
  | enc a b => exact advance_toNat cur
  | romrd | map | mapc | begin | cls | reserved6 | reserved7 => cases henc

/-- R13, R73: no third command writes the cursor. -/
theorem nextCur_of_not_writer (cur : Index) {i : Instr} (hbegin : i ≠ .begin) (henc : isEnc i = false) :
    nextCur cur i = cur := by
  cases i with
  | begin => exact absurd rfl hbegin
  | enc a b => cases henc
  | romrd | map | mapc | cls | reserved6 | reserved7 => rfl

/-- Settles O38: the new `CUR` is `nextCur`, class by class. -/
theorem onlyBeginAndEncWriteTheCursor : Obligations.OnlyBeginAndEncWriteTheCursor := by
  intro i s
  have hcur := responseTo_cur s.cur i
  refine ⟨_, exec_eq_emit_responseTo i s, rfl, ?_, ?_, ?_⟩
  · rintro rfl
    exact hcur
  · exact fun henc => (congrArg BitVec.toNat hcur).trans (nextCur_enc_toNat s.cur henc)
  · exact fun hbegin henc => hcur.trans (nextCur_of_not_writer s.cur hbegin henc)

/-- Settles O37: both answers are `responseTo` of the same command, at two cursor values. -/
theorem answersIgnoreTheCursor : Obligations.AnswersIgnoreTheCursor := by
  intro w s₁ s₂ rest₁ rest₂
  have hanswer (s : State) (rest : List Event) := exec_eq_emit_responseTo (decode w) (s.setEvents rest)
  have hsame := (statusAndData_responseTo s₁.cur (decode w)).trans (statusAndData_responseTo s₂.cur (decode w)).symm
  obtain ⟨hstatus, hdata⟩ := Prod.mk.inj hsame
  exact ⟨_, _, _, _, hanswer s₁ rest₁, rfl, hanswer s₂ rest₂, rfl, hstatus, hdata, rfl, rfl⟩

end Sys2Proof.Machine
end

section
/-! What a run over given events answers (spec/20_memory.md R27, spec/70_reset_and_hazards.md R125, R126). -/

namespace Sys2Proof.Machine

/-- The responses to a list of events from the cursor value `cur`: each command's at the `CUR` the events before it leave, and
none to a reset. That a run adds exactly these is `runFor_adds_responsesTo`. -/
def responsesTo (cur : Index) : List Event → List Rsp
  | [] => []
  | .command w :: es => responseTo cur (decode w) :: responsesTo (responseTo cur (decode w)).cur es
  | .reset :: es => responsesTo 0 es

/-- A run over the events `es` takes them all, leaves those after them, and adds the responses to them. -/
theorem runFor_adds_responsesTo (es later : List Event) (s : State) :
    ∃ t, runFor es.length (s.setEvents (es ++ later)) = .next t ∧ t.events = later ∧
      t.responses = s.responses ++ responsesTo s.cur es := by
  induction es generalizing s with
  | nil => exact ⟨_, rfl, rfl, (List.append_nil _).symm⟩
  | cons e es ih =>
    cases e with
    | command w =>
      let r := responseTo s.cur (decode w)
      obtain ⟨t, hrun, hevents, hresponses⟩ := ih ((s.setCur r.cur).emit r)
      have hstep : step (s.setEvents (.command w :: (es ++ later))) =
          .next (((s.setCur r.cur).emit r).setEvents (es ++ later)) :=
        exec_eq_emit_responseTo (decode w) (s.setEvents (es ++ later))
      exact ⟨t, (runFor_succ_of_next hstep).trans hrun, hevents,
        hresponses.trans (List.append_assoc s.responses [r] _)⟩
    | reset =>
      obtain ⟨t, hrun, hevents, hresponses⟩ := ih (s.setCur 0)
      exact ⟨t, (runFor_succ_of_next (step_reset s (es ++ later))).trans hrun, hevents, hresponses⟩

/-- Without their field `cur`, the responses are those of the command words one by one, each at any cursor value (R14). -/
theorem statusAndData_responsesTo (cur : Index) (es : List Event) :
    (responsesTo cur es).map statusAndData =
      (commandsOf es).map fun w => statusAndData (responseTo 0 (decode w)) := by
  induction es generalizing cur with
  | nil => rfl
  | cons e es ih =>
    cases e with
    | command w => exact congrArg₂ List.cons (statusAndData_responseTo cur (decode w)) (ih _)
    | reset => exact ih 0

/-- Settles O39: either run's statuses and data are a function of its command words. -/
theorem answersIgnoreStartAndResets : Obligations.AnswersIgnoreStartAndResets := by
  intro es₁ es₂ s₁ s₂ hcommands
  have hrun (es : List Event) (s : State) := runFor_adds_responsesTo es [] s
  simp only [List.append_nil] at hrun
  obtain ⟨t₁, hrun₁, -, hresponses₁⟩ := hrun es₁ s₁
  obtain ⟨t₂, hrun₂, -, hresponses₂⟩ := hrun es₂ s₂
  refine ⟨t₁, t₂, _, _, hrun₁, hresponses₁, hrun₂, hresponses₂, ?_⟩
  calc (responsesTo s₁.cur es₁).map statusAndData
    _ = (commandsOf es₁).map fun w => statusAndData (responseTo 0 (decode w)) := statusAndData_responsesTo s₁.cur es₁
    _ = (commandsOf es₂).map fun w => statusAndData (responseTo 0 (decode w)) := by rw [hcommands]
    _ = (responsesTo s₂.cur es₂).map statusAndData := (statusAndData_responsesTo s₂.cur es₂).symm

end Sys2Proof.Machine
end

section
/-! The order of a run's events and the number of its answers (spec/20_memory.md R27, spec/70_reset_and_hazards.md R131). -/

namespace Sys2Proof.Machine

/-- Every command, and no reset, is answered exactly once. -/
theorem length_responsesTo (cur : Index) (es : List Event) :
    (responsesTo cur es).length = (commandsOf es).length := by
  simpa using congrArg List.length (statusAndData_responsesTo cur es)

/-- Settles O6: the new responses are `responsesTo` of the events. -/
theorem runTakesEventsInOrder : Obligations.RunTakesEventsInOrder := by
  intro es later s
  obtain ⟨t, hrun, hevents, hresponses⟩ := runFor_adds_responsesTo es later s
  exact ⟨t, _, hrun, hevents, hresponses, length_responsesTo s.cur es⟩

end Sys2Proof.Machine
end

section
/-! The contents of the ROM (spec/20_memory.md R21, R23). -/

namespace Sys2Proof.Machine

/-- The packed entries of R21. -/
theorem packEntry_readRom :
    [0, 1, 2, 3].map (fun k => packEntry (readRom hardware k)) =
      [0x0BF800000BF800000, 0x5BF8000003F800000, 0xA3F800000BF800000, 0xF3F8000003F800000] := by
  decide

/-- Settles O15: one lemma per entry, and the entries packed. -/
theorem romContents : Obligations.RomContents :=
  ⟨readRom_zero, readRom_one, readRom_two, readRom_three, packEntry_readRom⟩

/-- `POS1` stands for +1 (spec/30_encoding.md R38): sign 0, exponent field 127, fraction 0. -/
theorem val_pos1 : val pos1 = .rat 1 := by
  have hsign : signBit pos1 = false := by decide
  have hexp : expField pos1 = 127 := by decide
  have hfrac : fracField pos1 = 0 := by decide
  norm_num [val, hsign, hexp, hfrac]

/-- `NEG1` stands for -1 (R38): it differs from `POS1` in its sign alone. -/
theorem val_neg1 : val neg1 = .rat (-1) := by
  have hsign : signBit neg1 = true := by decide
  have hexp : expField neg1 = 127 := by decide
  have hfrac : fracField neg1 = 0 := by decide
  norm_num [val, hsign, hexp, hfrac]

/-- A component chosen between `POS1` and `NEG1` by a bit stands for +1 exactly when the bit is 1. -/
theorem bit_iff_val_eq_one (b : Bool) : b = true ↔ val (if b then pos1 else neg1) = .rat 1 := by
  cases b with
  | true => simp [val_pos1]
  | false =>
    have hne : (-1 : Rat) ≠ 1 := by norm_num
    simp [val_neg1, hne]

/-- The identifier of an entry is its index (R23). -/
theorem readRom_id (k : Index) : (readRom hardware k).id = k :=
  (of_decide_eq_true hardware_romWf).1 k

/-- Settles O16: identifiers are indices, and `romWf` has the rest, the fifth invariant by component word. -/
theorem romInvariants : Obligations.RomInvariants := by
  obtain ⟨-, hlabel, hpoint, haxis⟩ := of_decide_eq_true hardware_romWf
  refine ⟨hlabel, hpoint, fun n => ⟨n, readRom_id n, fun j hj => (readRom_id j).symm.trans hj⟩, fun k => ?_⟩
  obtain ⟨hre, him⟩ := haxis k
  rw [hre, him]
  exact ⟨bit_iff_val_eq_one _, bit_iff_val_eq_one _⟩

end Sys2Proof.Machine
end

section
/-! The fields of a command word (spec/30_encoding.md R30 to R33): what the decoder makes of each opcode's argument, and that
decoding an encoded command gives it back. -/

namespace Sys2Proof

/-! ### Fields of words put together by `++` -/

/-- A field that lies in the low part of a word is the low part's. -/
theorem extractLsb'_append_low {m n start len : Nat} (x : BitVec m) {y : BitVec n} {field : BitVec len}
    (hin : start + len ≤ n) (hfield : y.extractLsb' start len = field) : (x ++ y).extractLsb' start len = field :=
  (BitVec.extractLsb'_append_eq_of_add_le hin).trans hfield

/-- The middle one of three fields. -/
theorem extractLsb'_append_append {m n p : Nat} (x : BitVec m) (y : BitVec n) (z : BitVec p) :
    (x ++ (y ++ z)).extractLsb' p n = y :=
  extractLsb'_append_low x (by omega) BitVec.extractLsb'_append_eq_left

/-! ### The decoder, one equation per opcode -/

theorem decode_romrd_word (arg : BitVec 64) : decode (commandWord 0b000 arg) = .romrd (arg.extractLsb' 0 2) := by
  simp [decode]

theorem decode_map_word (arg : BitVec 64) : decode (commandWord 0b001 arg) = .map (arg.getLsbD 1) (arg.getLsbD 0) := by
  simp [decode]

theorem decode_mapc_word (arg : BitVec 64) : decode (commandWord 0b010 arg) =
    .mapc (arg.extractLsb' 16 8) (arg.extractLsb' 8 8) (arg.extractLsb' 0 8) := by
  simp [decode]

theorem decode_begin_word (arg : BitVec 64) : decode (commandWord 0b011 arg) = .begin := by
  simp [decode]

theorem decode_enc_word (arg : BitVec 64) : decode (commandWord 0b100 arg) = .enc (arg.getLsbD 1) (arg.getLsbD 0) := by
  simp [decode]

theorem decode_cls_word (arg : BitVec 64) : decode (commandWord 0b101 arg) =
    .cls (arg.extractLsb' 32 32) (arg.extractLsb' 0 32) := by
  simp [decode]

theorem decode_reserved6_word (arg : BitVec 64) : decode (commandWord 0b110 arg) = .reserved6 := by
  simp [decode]

theorem decode_reserved7_word (arg : BitVec 64) : decode (commandWord 0b111 arg) = .reserved7 := by
  simp [decode]

/-! ### Operand fields under any reserved bits -/

theorem decode_romrd_fields (r : BitVec 62) (k : Index) : decode (commandWord 0b000 (r ++ k)) = .romrd k :=
  (decode_romrd_word _).trans (congrArg Instr.romrd BitVec.extractLsb'_append_eq_right)

/-- In format B the first bit stands at bit 1 of the argument, the second at bit 0 (R32). -/
theorem pair_fields {n : Nat} (r : BitVec n) (b₁ b₀ : Bool) :
    (r ++ (BitVec.ofBool b₁ ++ BitVec.ofBool b₀)).getLsbD 1 = b₁ ∧
      (r ++ (BitVec.ofBool b₁ ++ BitVec.ofBool b₀)).getLsbD 0 = b₀ := by
  simp only [BitVec.getLsbD_append, BitVec.getLsbD_ofBool]
  simp

theorem decode_map_fields (r : BitVec 62) (b₁ b₀ : Bool) :
    decode (commandWord 0b001 (r ++ (BitVec.ofBool b₁ ++ BitVec.ofBool b₀))) = .map b₁ b₀ := by
  obtain ⟨hfirst, hsecond⟩ := pair_fields r b₁ b₀
  exact (decode_map_word _).trans (congrArg₂ Instr.map hfirst hsecond)

theorem decode_enc_fields (r : BitVec 62) (b₁ b₀ : Bool) :
    decode (commandWord 0b100 (r ++ (BitVec.ofBool b₁ ++ BitVec.ofBool b₀))) = .enc b₁ b₀ := by
  obtain ⟨hfirst, hsecond⟩ := pair_fields r b₁ b₀
  exact (decode_enc_word _).trans (congrArg₂ Instr.enc hfirst hsecond)

/-- The fields of format C (R32). -/
theorem mapc_fields (r : BitVec 40) (len c₁ c₂ : BitVec 8) :
    (r ++ (len ++ (c₁ ++ c₂))).extractLsb' 16 8 = len ∧ (r ++ (len ++ (c₁ ++ c₂))).extractLsb' 8 8 = c₁ ∧
      (r ++ (len ++ (c₁ ++ c₂))).extractLsb' 0 8 = c₂ := by
  refine ⟨extractLsb'_append_append r len (c₁ ++ c₂), ?_, ?_⟩
  · exact extractLsb'_append_low r (by decide) (extractLsb'_append_append len c₁ c₂)
  · iterate 2 refine extractLsb'_append_low _ (by decide) ?_
    exact BitVec.extractLsb'_append_eq_right

theorem decode_mapc_fields (r : BitVec 40) (len c₁ c₂ : BitVec 8) :
    decode (commandWord 0b010 (r ++ (len ++ (c₁ ++ c₂)))) = .mapc len c₁ c₂ := by
  obtain ⟨hlen, hfirst, hsecond⟩ := mapc_fields r len c₁ c₂
  rw [decode_mapc_word]
  congr

theorem decode_cls_fields (re im : Component) : decode (commandWord 0b101 (re ++ im)) = .cls re im :=
  (decode_cls_word _).trans (congrArg₂ Instr.cls BitVec.extractLsb'_append_eq_left BitVec.extractLsb'_append_eq_right)

/-! ### Decoding an encoded command -/

@[simp] theorem decode_encode (i : Instr) : decode (encode i) = i := by
  cases i with
  | romrd k => exact decode_romrd_fields 0 k
  | map a b => exact decode_map_fields 0 a b
  | mapc len a b => exact decode_mapc_fields 0 len a b
  | begin => exact decode_begin_word 0
  | enc a b => exact decode_enc_fields 0 a b
  | cls re im => exact decode_cls_fields re im
  | reserved6 => exact decode_reserved6_word 0
  | reserved7 => exact decode_reserved7_word 0

/-- Settles O7: the reserved bits are 0, and each operand is read from where it was written. -/
theorem decodeEncodeRoundTrip : Obligations.DecodeEncodeRoundTrip :=
  decode_encode

end Sys2Proof
end

section
/-! The invariant on responses (spec/30_encoding.md R34, R37): what one step adds to them is one `responseTo` or nothing. -/

namespace Sys2Proof.Machine

theorem errorRsp_legal (cur : Index) (e : BlockError) : (errorRsp cur e).Legal := by
  have hstatus : (errorRsp cur e).status ≠ .ok := errorStatus_ne_ok e
  rw [Rsp.Legal, if_neg hstatus]
  rfl

/-- Each command's answer has one of the shapes of R34. -/
theorem responseTo_legal (cur : Index) (i : Instr) : (responseTo cur i).Legal := by
  cases i with
  | romrd k => exact .inr (.inl ⟨k, rfl⟩)
  | map a b => exact .inr (.inr (.inl ⟨a, b, rfl⟩))
  | mapc len a b =>
    simp only [responseTo]
    split
    · exact errorRsp_legal cur .len
    · exact .inr (.inr (.inl ⟨_, _, rfl⟩))
  | begin => exact .inl rfl
  | enc a b => exact .inr (.inr (.inl ⟨a, b, rfl⟩))
  | cls re im =>
    simp only [responseTo]
    split
    · exact .inr (.inr (.inr ⟨_, rfl⟩))
    · exact errorRsp_legal cur .nonfinite
  | reserved6 => exact errorRsp_legal cur .op
  | reserved7 => exact errorRsp_legal cur .op

/-- A step keeps the responses given, and adds one for a command and none otherwise (R27, R120). -/
theorem step_responses {s t : State} (h : step s = .next t) :
    t.responses = s.responses ∨ ∃ i, t.responses = s.responses ++ [responseTo s.cur i] := by
  rw [step] at h
  split at h
  next => exact .inl (congrArg State.responses (idle_next h))
  next => exact .inl (applyReset_next h ▸ rfl)
  next w rest _ =>
    rw [exec_eq_emit_responseTo] at h
    cases h
    exact .inr ⟨decode w, rfl⟩

/-- Settles O40: the responses given were legal, and the one a step may add is. -/
theorem everyStepKeepsAnswersLegal : Obligations.EveryStepKeepsAnswersLegal := by
  intro s t hinv hstep r hr
  obtain hsame | ⟨i, hadded⟩ := step_responses hstep
  · exact hinv r (hsame ▸ hr)
  · obtain hold | hnew := List.mem_append.1 (hadded ▸ hr)
    · exact hinv r hold
    · exact List.mem_singleton.1 hnew ▸ responseTo_legal s.cur i

/-- Settles O41: no response has been given. -/
theorem resetAnswersLegal : Obligations.ResetAnswersLegal :=
  fun _ hr => absurd hr List.not_mem_nil

end Sys2Proof.Machine
end

section
/-! Reserved argument bits (spec/30_encoding.md R32, R33) and the opcode table (R31): what a word loses in decoding. -/

namespace Sys2Proof

/-! ### Masks on a command word -/

/-- A mask that holds the three opcode bits acts on the argument alone. -/
theorem commandWord_and_opcodeMask (op : BitVec 3) (arg mask : BitVec 64) :
    commandWord op arg &&& commandWord 7 mask = commandWord op (arg &&& mask) := by
  have hop : op &&& 7 = op := BitVec.and_allOnes
  calc commandWord op arg &&& commandWord 7 mask
    _ = commandWord (op &&& 7) (arg &&& mask) := BitVec.and_append
    _ = commandWord op (arg &&& mask) := by rw [hop]

/-- Every format names the opcode bits (R32). -/
theorem usedMask_eq_commandWord (op : BitVec 3) : usedMask op = commandWord 7 (argField (usedMask op)) := by
  revert op
  decide

/-- Clearing all but the low `k` bits leaves the field of those bits, under zeros. -/
theorem zero_append_extractLsb' {m k : Nat} (x : BitVec (m + k)) :
    (0 : BitVec m) ++ x.extractLsb' 0 k = x &&& BitVec.ofNat (m + k) (2 ^ k - 1) := by
  apply BitVec.eq_of_getLsbD_eq
  intro i h
  rw [BitVec.getLsbD_append, BitVec.getLsbD_and, BitVec.getLsbD_ofNat, Nat.testBit_two_pow_sub_one,
    BitVec.getLsbD_extractLsb', Nat.zero_add]
  by_cases hk : i < k
  · simp [hk, h]
  · simp [hk]

/-! ### Arguments put together again from their fields -/

theorem ofBool_getLsbD {n : Nat} (x : BitVec n) (i : Nat) : BitVec.ofBool (x.getLsbD i) = x.extractLsb' i 1 := by
  ext j h
  simp [show j = 0 by omega]

theorem pairArg_getLsbD (arg : BitVec 64) : pairArg (arg.getLsbD 1) (arg.getLsbD 0) = arg &&& 3 := by
  have hpair : arg.extractLsb' 1 1 ++ arg.extractLsb' 0 1 = arg.extractLsb' 0 2 :=
    BitVec.extractLsb'_append_extractLsb'_eq_extractLsb' rfl
  rw [pairArg, ofBool_getLsbD, ofBool_getLsbD, hpair]
  exact zero_append_extractLsb' (m := 62) (k := 2) arg

theorem mapcArg_extractLsb' (arg : BitVec 64) :
    (0 : BitVec 40) ++ (arg.extractLsb' 16 8 ++ (arg.extractLsb' 8 8 ++ arg.extractLsb' 0 8)) = arg &&& 0xFFFFFF := by
  have hcodes : arg.extractLsb' 8 8 ++ arg.extractLsb' 0 8 = arg.extractLsb' 0 16 :=
    BitVec.extractLsb'_append_extractLsb'_eq_extractLsb' rfl
  have hfields : arg.extractLsb' 16 8 ++ arg.extractLsb' 0 16 = arg.extractLsb' 0 24 :=
    BitVec.extractLsb'_append_extractLsb'_eq_extractLsb' rfl
  rw [hcodes, hfields]
  exact zero_append_extractLsb' (m := 40) (k := 24) arg

/-! ### Encoding a decoded word -/

theorem opcode_cases (op : BitVec 3) :
    op = 0b000 ∨ op = 0b001 ∨ op = 0b010 ∨ op = 0b011 ∨ op = 0b100 ∨ op = 0b101 ∨ op = 0b110 ∨ op = 0b111 := by
  revert op
  decide

/-- Of an argument, decoding and encoding keep the bits that the opcode's format names. -/
theorem encode_decode_commandWord (op : BitVec 3) (arg : BitVec 64) :
    encode (decode (commandWord op arg)) = commandWord op (arg &&& argField (usedMask op)) := by
  have hnone : (0 : BitVec 64) = arg &&& 0 := BitVec.and_zero.symm
  obtain rfl | rfl | rfl | rfl | rfl | rfl | rfl | rfl := opcode_cases op
  · rw [decode_romrd_word]
    exact congrArg (commandWord 0b000) (zero_append_extractLsb' (m := 62) (k := 2) arg)
  · rw [decode_map_word]
    exact congrArg (commandWord 0b001) (pairArg_getLsbD arg)
  · rw [decode_mapc_word]
    exact congrArg (commandWord 0b010) (mapcArg_extractLsb' arg)
  · rw [decode_begin_word]
    exact congrArg (commandWord 0b011) hnone
  · rw [decode_enc_word]
    exact congrArg (commandWord 0b100) (pairArg_getLsbD arg)
  · rw [decode_cls_word]
    have hwhole : arg.extractLsb' 32 32 ++ arg.extractLsb' 0 32 = arg := BitVec.extractLsb'_append_extractLsb'
    have hall : arg &&& 0xFFFFFFFFFFFFFFFF = arg := BitVec.and_allOnes
    exact congrArg (commandWord 0b101) (hwhole.trans hall.symm)
  · rw [decode_reserved6_word]
    exact congrArg (commandWord 0b110) hnone
  · rw [decode_reserved7_word]
    exact congrArg (commandWord 0b111) hnone

theorem encode_decode (w : CmdWord) : encode (decode w) = w &&& usedMask (opField w) :=
  calc encode (decode w)
    _ = encode (decode (commandWord (opField w) (argField w))) := by rw [commandWord_fields]
    _ = commandWord (opField w) (argField w &&& argField (usedMask (opField w))) := encode_decode_commandWord _ _
    _ = commandWord (opField w) (argField w) &&& usedMask (opField w) := by
      rw [usedMask_eq_commandWord, commandWord_and_opcodeMask, argField_commandWord]
    _ = w &&& usedMask (opField w) := by rw [commandWord_fields]

/-- Settles O8: opcode by opcode, the fields put together again are the argument under its mask. -/
theorem encodeDecodeClearsReservedBits : Obligations.EncodeDecodeClearsReservedBits :=
  encode_decode

/-! ### Reserved bits -/

/-- Words that differ only in reserved bits have one decoding: that of the encoding they share. -/
theorem decode_eq_of_used_bits_eq {w₁ w₂ : CmdWord}
    (h : w₁ &&& usedMask (opField w₁) = w₂ &&& usedMask (opField w₂)) : decode w₁ = decode w₂ :=
  calc decode w₁
    _ = decode (encode (decode w₁)) := (decode_encode _).symm
    _ = decode (encode (decode w₂)) := by rw [encode_decode, encode_decode, h]
    _ = decode w₂ := decode_encode _

/-- Settles O9: a step looks at the decoding of a word only. -/
theorem reservedBitsAreIgnored : Obligations.ReservedBitsAreIgnored := by
  intro w₁ w₂ s rest h
  calc Machine.step (s.setEvents (.command w₁ :: rest))
    _ = Machine.exec (decode w₁) (s.setEvents rest) := Machine.step_command s w₁ rest
    _ = Machine.exec (decode w₂) (s.setEvents rest) := by rw [decode_eq_of_used_bits_eq h]
    _ = Machine.step (s.setEvents (.command w₂ :: rest)) := (Machine.step_command s w₂ rest).symm

/-- An encoding is the encoding of its own decoding, so masking its reserved bits changes nothing in it. -/
theorem encode_and_usedMask (i : Instr) : encode i &&& usedMask (opField (encode i)) = encode i := by
  rw [← encode_decode, decode_encode]

/-- The encoder writes the reserved bits as 0 (R33). -/
theorem encode_reserved_bits_zero (i : Instr) : encode i &&& ~~~usedMask (opField (encode i)) = 0 := by
  have hused := encode_and_usedMask i
  generalize usedMask (opField (encode i)) = mask at hused ⊢
  rw [← hused, BitVec.and_assoc, BitVec.and_not_self]
  exact BitVec.and_zero

/-- Settles O10: one lemma per format, and the encoder's reserved bits. -/
theorem operandsAreFieldsAsTheyStand : Obligations.OperandsAreFieldsAsTheyStand :=
  ⟨decode_romrd_fields, decode_map_fields, decode_mapc_fields, decode_begin_word, decode_enc_fields, decode_cls_fields,
    encode_reserved_bits_zero⟩

/-! ### The opcode table -/

/-- The encoding of a command lies in its row (R31). -/
theorem encode_and_rowMask (i : Instr) : encode i &&& rowMask = rowMatch i := by
  cases i with
  | romrd k => exact Laws.EncodesToRow.romrd k
  | map a b => exact Laws.EncodesToRow.map a b
  | mapc len a b => exact Laws.EncodesToRow.mapc len a b
  | begin => exact Laws.EncodesToRow.begin
  | enc a b => exact Laws.EncodesToRow.enc a b
  | cls re im => exact Laws.EncodesToRow.cls re im
  | reserved6 => exact Laws.EncodesToRow.reserved6
  | reserved7 => exact Laws.EncodesToRow.reserved7

theorem usedMask_and_rowMask (op : BitVec 3) : usedMask op &&& rowMask = rowMask := by
  revert op
  decide

/-- The row of a word's decoding is the one its opcode bits match. -/
theorem rowMatch_decode (w : CmdWord) : rowMatch (decode w) = w &&& rowMask :=
  calc rowMatch (decode w)
    _ = encode (decode w) &&& rowMask := (encode_and_rowMask _).symm
    _ = w &&& (usedMask (opField w) &&& rowMask) := by rw [encode_decode, BitVec.and_assoc]
    _ = w &&& rowMask := by rw [usedMask_and_rowMask]

/-- Settles O11: the masked word is the match of the row of its decoding. -/
theorem decoderFollowsOpcodeTable : Obligations.DecoderFollowsOpcodeTable := by
  intro w i
  rw [rowMatch_decode]

end Sys2Proof
end

section
/-! The response word (spec/30_encoding.md R34, R35): its fields read back, and put together again. -/

namespace Sys2Proof.Machine

theorem statusOfCode_statusCode (st : Status) : statusOfCode (statusCode st) = some st := by
  cases st <;> rfl

/-- The codes of R35 are the only ones that are read, each as its own status. -/
theorem statusCode_of_statusOfCode {c : BitVec 3} {st : Status} (h : statusOfCode c = some st) : statusCode st = c := by
  revert c st
  decide

/-- Every field stands at its place in R34. -/
theorem rspWord_fields (r : Rsp) :
    (rspWord r).extractLsb' 72 3 = statusCode r.status ∧ (rspWord r).extractLsb' 70 2 = r.cur ∧
      (rspWord r).extractLsb' 68 2 = r.data.idx ∧ (rspWord r).extractLsb' 66 2 = r.data.label ∧
      (rspWord r).extractLsb' 64 2 = r.data.bits ∧ (rspWord r).extractLsb' 32 32 = r.data.re ∧
      (rspWord r).extractLsb' 0 32 = r.data.im := by
  obtain ⟨st, cur, idx, label, bits, re, im⟩ := r
  have him : (re ++ im).extractLsb' 0 32 = im := BitVec.extractLsb'_append_eq_right
  have hre : (re ++ im).extractLsb' 32 32 = re := BitVec.extractLsb'_append_eq_left
  refine ⟨BitVec.extractLsb'_append_eq_left, extractLsb'_append_append (statusCode st) cur _, ?_, ?_, ?_, ?_, ?_⟩
  · exact extractLsb'_append_low _ (by decide) (extractLsb'_append_append cur idx _)
  · iterate 2 refine extractLsb'_append_low _ (by decide) ?_
    exact extractLsb'_append_append idx label _
  · iterate 3 refine extractLsb'_append_low _ (by decide) ?_
    exact extractLsb'_append_append label bits _
  · iterate 5 refine extractLsb'_append_low _ (by decide) ?_
    exact hre
  · iterate 5 refine extractLsb'_append_low _ (by decide) ?_
    exact him

theorem rspOfWord_rspWord (r : Rsp) : rspOfWord (rspWord r) = some r := by
  obtain ⟨hstatus, hcur, hidx, hlabel, hbits, hre, him⟩ := rspWord_fields r
  rw [rspOfWord, hstatus, hcur, hidx, hlabel, hbits, hre, him, statusOfCode_statusCode]
  rfl

/-- The fields of R34 are the whole word. -/
theorem rspWord_of_rspOfWord {w : RspWord} {r : Rsp} (h : rspOfWord w = some r) : rspWord r = w := by
  obtain ⟨st, hst, rfl⟩ := Option.map_eq_some_iff.1 h
  rw [rspWord, statusCode_of_statusOfCode hst]
  simp only [BitVec.extractLsb'_append_extractLsb'_eq_extractLsb']
  exact BitVec.extractLsb'_eq_self

/-- Settles O13: reading back and putting together, each from the places of R34. -/
theorem responseWordRoundTrip : Obligations.ResponseWordRoundTrip :=
  ⟨rspOfWord_rspWord, fun _ _ h => rspWord_of_rspOfWord h⟩

end Sys2Proof.Machine
end

section
/-! The value of a component word (spec/30_encoding.md R37), class by class, and in units of the least subnormal (M11). -/

namespace Sys2Proof.Machine

/-! ### The sign -/

/-- The sign bit as the factor of R37. -/
theorem sign_pow (w : Component) : (-1 : ℚ) ^ (w.extractLsb' 31 1).toNat = if signBit w then -1 else 1 := by
  rw [← ofBool_getLsbD, BitVec.toNat_ofBool, signBit]
  cases w.getLsbD 31 with
  | false => rfl
  | true => exact pow_one _

theorem cast_scaled (w : Component) :
    (scaled w : ℚ) = (-1) ^ (w.extractLsb' 31 1).toNat * (scaledMagnitude w : ℚ) := by
  rw [sign_pow, scaled]
  split <;> simp

/-! ### One equation per class of R37 -/

theorem val_nan {w : Component} (hexp : expField w = 255) (hfrac : fracField w ≠ 0) : val w = .nan := by
  simp [val, hexp, hfrac]

theorem val_inf {w : Component} (hexp : expField w = 255) (hfrac : fracField w = 0) : val w = .inf (w.getLsbD 31) := by
  simp [val, hexp, hfrac, signBit]

theorem val_normal {w : Component} (hexp : expField w ≠ 0) (hfinite : expField w ≠ 255) : val w = .rat
    ((-1) ^ (w.extractLsb' 31 1).toNat * 2 ^ ((expField w : ℤ) - 127) * (1 + (fracField w : ℚ) / 2 ^ 23)) := by
  rw [sign_pow]
  exact (if_neg hfinite).trans (if_neg hexp)

theorem val_subnormal {w : Component} (hexp : expField w = 0) : val w = .rat
    ((-1) ^ (w.extractLsb' 31 1).toNat * 2 ^ (-126 : ℤ) * ((fracField w : ℚ) / 2 ^ 23)) := by
  have hfinite : expField w ≠ 255 := by omega
  rw [sign_pow]
  exact (if_neg hfinite).trans (if_pos hexp)

theorem val_zero {w : Component} (hexp : expField w = 0) (hfrac : fracField w = 0) : val w = .rat 0 := by
  simp [val_subnormal hexp, hfrac]

/-! ### Finite words in units of 2^-149 -/

/-- The exponent of R37 as the shift of a magnitude in units and a constant. -/
theorem two_zpow_exponent {e : ℕ} (he : e ≠ 0) : (2 : ℚ) ^ ((e : ℤ) - 127) = 2 ^ (e - 1) / 2 ^ 126 := by
  have hexp : (e : ℤ) - 127 = ((e - 1 : ℕ) : ℤ) - (126 : ℕ) := by omega
  rw [hexp, zpow_sub₀ two_ne_zero, zpow_natCast, zpow_natCast]

/-- The value of a finite word is its whole number of units. -/
theorem val_eq_scaled {w : Component} (hfinite : expField w ≠ 255) : val w = .rat ((scaled w : ℚ) / 2 ^ 149) := by
  by_cases hexp : expField w = 0
  · have hunits : scaledMagnitude w = fracField w := if_pos hexp
    rw [val_subnormal hexp, cast_scaled, hunits]
    congr 1
    ring
  · have hunits : scaledMagnitude w = (2 ^ 23 + fracField w) * 2 ^ (expField w - 1) := if_neg hexp
    rw [val_normal hexp hfinite, cast_scaled, hunits, two_zpow_exponent hexp]
    push_cast
    congr 1
    ring

/-- Settles O26: one lemma per class, and the finite ones in units. -/
theorem componentValueByClass : Obligations.ComponentValueByClass := by
  intro w
  refine ⟨?_, ?_, ?_, ?_, ?_, fun hfinite => val_eq_scaled ((finite_iff w).1 hfinite)⟩
  · rintro ⟨hexp, hfrac⟩
    exact ⟨val_nan hexp hfrac, by simp [finite, hexp]⟩
  · rintro ⟨hexp, hfrac⟩
    exact ⟨val_inf hexp hfrac, by simp [finite, hexp]⟩
  · rintro ⟨hlow, hhigh⟩
    have hfinite : expField w ≠ 255 := by omega
    exact ⟨(finite_iff w).2 hfinite, val_normal (by omega) hfinite⟩
  · rintro ⟨hexp, -⟩
    exact ⟨(finite_iff w).2 (by omega), val_subnormal hexp⟩
  · rintro ⟨hexp, hfrac⟩
    exact ⟨(finite_iff w).2 (by omega), val_zero hexp hfrac⟩

end Sys2Proof.Machine
end

section
/-! The word of a real operand (spec/30_encoding.md R37, R44): a rational has one exactly when it is a whole number of units of
2^-149 that an exponent and a fraction field can hold. -/

namespace Sys2Proof.Machine

/-! ### A component word from its fields -/

/-- The component word with these three fields (R37). -/
def componentOf (negative : Bool) (e f : ℕ) : Component :=
  BitVec.ofNat 32 (negative.toNat * 2 ^ 31 + e * 2 ^ 23 + f)

/-- The magnitude, in units of 2^-149, of a finite word with these fields. -/
def unitsOf (e f : ℕ) : ℕ := if e = 0 then f else (2 ^ 23 + f) * 2 ^ (e - 1)

theorem scaledMagnitude_eq_unitsOf (w : Component) : scaledMagnitude w = unitsOf (expField w) (fracField w) := rfl

theorem fracField_lt (w : Component) : fracField w < 2 ^ 23 := (w.extractLsb' 0 23).isLt

section
variable {e f : ℕ} (negative : Bool) (he : e < 256) (hf : f < 2 ^ 23)
include he hf

theorem toNat_componentOf : (componentOf negative e f).toNat = negative.toNat * 2 ^ 31 + e * 2 ^ 23 + f := by
  have hbit := negative.toNat_lt
  rw [componentOf, BitVec.toNat_ofNat]
  exact Nat.mod_eq_of_lt (by omega)

theorem expField_componentOf : expField (componentOf negative e f) = e := by
  have hbit := negative.toNat_lt
  rw [expField, BitVec.extractLsb'_toNat, toNat_componentOf negative he hf, Nat.shiftRight_eq_div_pow]
  omega

theorem fracField_componentOf : fracField (componentOf negative e f) = f := by
  rw [fracField, BitVec.extractLsb'_toNat, toNat_componentOf negative he hf, Nat.shiftRight_eq_div_pow]
  omega

theorem signBit_componentOf : signBit (componentOf negative e f) = negative := by
  rw [signBit, BitVec.getLsbD, toNat_componentOf negative he hf, Nat.testBit_eq_decide_div_mod_eq]
  cases negative with
  | false => simp only [Bool.toNat_false]; exact decide_eq_false (by omega)
  | true => simp only [Bool.toNat_true]; exact decide_eq_true (by omega)

theorem scaled_componentOf :
    scaled (componentOf negative e f) = if negative then -(unitsOf e f : ℤ) else unitsOf e f := by
  rw [scaled, scaledMagnitude_eq_unitsOf, signBit_componentOf negative he hf, expField_componentOf negative he hf,
    fracField_componentOf negative he hf]

end

/-! ### The fields of a magnitude -/

/-- The exponent and fraction fields of a magnitude of `n` units, where binary32 has them. -/
def fieldsOfUnits (n : ℕ) : Option (ℕ × ℕ) :=
  if n < 2 ^ 23 then some (0, n)
  else if n.log2 - 22 ≤ 254 ∧ n % 2 ^ (n.log2 - 22 - 1) = 0 then
    some (n.log2 - 22, n / 2 ^ (n.log2 - 22 - 1) - 2 ^ 23)
  else none

theorem wordOfReal_eq_map_fieldsOfUnits (q : ℚ) : wordOfReal q =
    if q.num.natAbs * 2 ^ 149 % q.den ≠ 0 then none
    else (fieldsOfUnits (q.num.natAbs * 2 ^ 149 / q.den)).map fun ef => componentOf (q.num < 0) ef.1 ef.2 := by
  have hsign : (if q.num < 0 then 2 ^ 31 else 0) = (decide (q.num < 0)).toNat * 2 ^ 31 := by
    split <;> simp [*]
  simp only [wordOfReal, fieldsOfUnits, componentOf, hsign]
  split
  · rfl
  · split
    · simp
    · split <;> simp

/-- A magnitude that is not below the least normal one has its leading bit at bit 23 or above. -/
theorem unitsOf_normalised {k f : ℕ} (hf : f < 2 ^ 23) : ((2 ^ 23 + f) * 2 ^ k).log2 = k + 23 := by
  have hpos : 0 < 2 ^ k := Nat.two_pow_pos k
  rw [Nat.log2_eq_iff (by positivity)]
  constructor
  · calc 2 ^ (k + 23) = 2 ^ 23 * 2 ^ k := by ring
      _ ≤ (2 ^ 23 + f) * 2 ^ k := Nat.mul_le_mul_right _ (by omega)
  · calc (2 ^ 23 + f) * 2 ^ k < 2 ^ 24 * 2 ^ k := Nat.mul_lt_mul_of_pos_right (by omega) hpos
      _ = 2 ^ (k + 23 + 1) := by ring

theorem fieldsOfUnits_unitsOf {e f : ℕ} (he : e ≤ 254) (hf : f < 2 ^ 23) : fieldsOfUnits (unitsOf e f) = some (e, f) := by
  cases e with
  | zero => exact if_pos hf
  | succ k =>
    have hunits : unitsOf (k + 1) f = (2 ^ 23 + f) * 2 ^ k := rfl
    have hpos : 0 < 2 ^ k := Nat.two_pow_pos k
    have hnormal : ¬ (2 ^ 23 + f) * 2 ^ k < 2 ^ 23 :=
      Nat.not_lt.2 (le_trans (Nat.le_add_right _ f) (Nat.le_mul_of_pos_right _ hpos))
    have hexp : ((2 ^ 23 + f) * 2 ^ k).log2 - 22 = k + 1 := by rw [unitsOf_normalised hf]; omega
    rw [hunits, fieldsOfUnits, if_neg hnormal, hexp, Nat.add_sub_cancel, Nat.mul_div_cancel _ hpos,
      if_pos ⟨he, Nat.mul_mod_left _ _⟩, Nat.add_sub_cancel_left]

/-- With the leading bit at bit `k + 23`, what stands above the low `k` bits has 24 bits. -/
theorem significand_bounds {k m : ℕ} (hlow : 2 ^ (k + 23) ≤ 2 ^ k * m) (hhigh : 2 ^ k * m < 2 ^ (k + 23 + 1)) :
    2 ^ 23 ≤ m ∧ m < 2 ^ 24 := by
  rw [pow_add] at hlow
  rw [add_assoc, pow_add] at hhigh
  exact ⟨Nat.le_of_mul_le_mul_left hlow (Nat.two_pow_pos k), Nat.lt_of_mul_lt_mul_left hhigh⟩

theorem fieldsOfUnits_eq_some {n e f : ℕ} (h : fieldsOfUnits n = some (e, f)) :
    e ≤ 254 ∧ f < 2 ^ 23 ∧ unitsOf e f = n := by
  rw [fieldsOfUnits] at h
  split at h
  next hsub =>
    cases h
    exact ⟨Nat.zero_le _, hsub, rfl⟩
  next hnormal =>
    split at h
    next hfits =>
      obtain ⟨he, hwhole⟩ := hfits
      have hleading : 23 ≤ n.log2 := (Nat.le_log2 (by omega)).2 (Nat.not_lt.1 hnormal)
      obtain ⟨k, hk⟩ := Nat.exists_eq_add_of_le' hleading
      obtain ⟨hlow, hhigh⟩ := (Nat.log2_eq_iff (by omega)).1 hk
      have hexp : n.log2 - 22 = k + 1 := by omega
      rw [hexp, Nat.add_sub_cancel] at h hwhole
      obtain ⟨m, rfl⟩ := Nat.dvd_of_mod_eq_zero hwhole
      have hpos : 0 < 2 ^ k := Nat.two_pow_pos k
      obtain ⟨hmlow, hmhigh⟩ := significand_bounds hlow hhigh
      rw [Nat.mul_div_cancel_left _ hpos] at h
      cases h
      refine ⟨by omega, by omega, ?_⟩
      calc (2 ^ 23 + (m - 2 ^ 23)) * 2 ^ k
        _ = m * 2 ^ k := by rw [Nat.add_sub_cancel' hmlow]
        _ = 2 ^ k * m := Nat.mul_comm _ _
    next => cases h

/-! ### Rationals in units -/

theorem eq_units_iff (q : ℚ) (z : ℤ) : q = (z : ℚ) / 2 ^ 149 ↔ q.num * 2 ^ 149 = z * q.den := by
  have hden : (q.den : ℚ) ≠ 0 := Nat.cast_ne_zero.2 q.den_nz
  conv_lhs => rw [← Rat.num_div_den q]
  rw [div_eq_div_iff hden (by positivity)]
  exact_mod_cast Iff.rfl

/-- A rational whose magnitude is `n` units is that number of them, under its sign. -/
theorem eq_units_of_magnitude {q : ℚ} {n : ℕ} (hn : q.num.natAbs * 2 ^ 149 = n * q.den) :
    q = ((if decide (q.num < 0) then -(n : ℤ) else n : ℤ) : ℚ) / 2 ^ 149 := by
  have hunits : (n : ℤ) * q.den = (q.num.natAbs : ℤ) * 2 ^ 149 := by exact_mod_cast hn.symm
  rw [eq_units_iff]
  by_cases hneg : q.num < 0
  · rw [if_pos (decide_eq_true hneg), neg_mul, hunits, Int.ofNat_natAbs_of_nonpos hneg.le, neg_mul, neg_neg]
  · rw [if_neg (by simpa using hneg), hunits, Int.natAbs_of_nonneg (not_lt.1 hneg)]

theorem natAbs_scaled (w : Component) : (scaled w).natAbs = scaledMagnitude w := by
  rw [scaled]
  split <;> simp

/-- The word written for a real stands for that real. -/
theorem val_of_wordOfReal {q : ℚ} {w : Component} (h : wordOfReal q = some w) : val w = .rat q := by
  rw [wordOfReal_eq_map_fieldsOfUnits] at h
  split at h
  next => cases h
  next hwhole =>
    have hdvd := Nat.dvd_of_mod_eq_zero (not_not.1 hwhole)
    obtain ⟨⟨e, f⟩, hfields, rfl⟩ := Option.map_eq_some_iff.1 h
    obtain ⟨he, hf, hunits⟩ := fieldsOfUnits_eq_some hfields
    have he' : e < 256 := by omega
    rw [val_eq_scaled (by rw [expField_componentOf _ he' hf]; omega), scaled_componentOf _ he' hf, hunits]
    exact congrArg Value.rat (eq_units_of_magnitude (Nat.div_mul_cancel hdvd).symm).symm

/-- A real that some word stands for has a word. -/
theorem wordOfReal_of_val {q : ℚ} {w : Component} (h : val w = .rat q) : ∃ w', wordOfReal q = some w' := by
  have hfinite : expField w ≠ 255 := by
    intro hexp
    by_cases hfrac : fracField w = 0
    · cases (val_inf hexp hfrac).symm.trans h
    · cases (val_nan hexp hfrac).symm.trans h
  have hq : q = (scaled w : ℚ) / 2 ^ 149 := Value.rat.inj (h.symm.trans (val_eq_scaled hfinite))
  have hunits : q.num.natAbs * 2 ^ 149 = unitsOf (expField w) (fracField w) * q.den := by
    have hnatAbs := congrArg Int.natAbs ((eq_units_iff q _).1 hq)
    rwa [Int.natAbs_mul, Int.natAbs_mul, natAbs_scaled, Int.natAbs_natCast] at hnatAbs
  have hfields := fieldsOfUnits_unitsOf (e := expField w) (by have := expField_lt w; omega) (fracField_lt w)
  rw [wordOfReal_eq_map_fieldsOfUnits, hunits, Nat.mul_mod_left, Nat.mul_div_cancel _ q.den_pos, hfields]
  exact ⟨_, rfl⟩

end Sys2Proof.Machine
end

section
/-! Written commands (spec/30_encoding.md R44): what each stands for, and its word as a number. -/

namespace Sys2Proof

open Machine

/-! ### Encodings as numbers -/

theorem append_toNat {m n : ℕ} (x : BitVec m) (y : BitVec n) : (x ++ y).toNat = x.toNat * 2 ^ n + y.toNat := by
  rw [BitVec.toNat_append, ← Nat.shiftLeft_add_eq_or_of_lt y.isLt, Nat.shiftLeft_eq]

theorem zero_append_toNat {m n : ℕ} (y : BitVec n) : ((0 : BitVec m) ++ y).toNat = y.toNat := by
  rw [append_toNat]
  simp

theorem commandWord_eq_ofNat (op : BitVec 3) {arg : BitVec 64} {n : ℕ} (harg : arg.toNat = n) :
    commandWord op arg = BitVec.ofNat 67 (op.toNat * 2 ^ 64 + n) := by
  subst harg
  apply BitVec.eq_of_toNat_eq
  rw [BitVec.toNat_ofNat, Nat.mod_eq_of_lt (by omega)]
  exact append_toNat op arg

theorem pairArg_toNat (x y : Bool) : (pairArg x y).toNat = 2 * x.toNat + y.toNat := by
  revert x y
  decide

theorem encode_romrd (k : Index) : encode (.romrd k) = BitVec.ofNat 67 k.toNat :=
  (commandWord_eq_ofNat 0 (zero_append_toNat k)).trans (congrArg (BitVec.ofNat 67) (Nat.zero_add _))

theorem encode_map (x y : Bool) : encode (.map x y) = BitVec.ofNat 67 (1 * 2 ^ 64 + 2 * x.toNat + y.toNat) := by
  rw [add_assoc]
  exact commandWord_eq_ofNat 1 (pairArg_toNat x y)

theorem encode_begin : encode .begin = BitVec.ofNat 67 (3 * 2 ^ 64) := by
  decide

theorem encode_enc (x y : Bool) : encode (.enc x y) = BitVec.ofNat 67 (4 * 2 ^ 64 + 2 * x.toNat + y.toNat) := by
  rw [add_assoc]
  exact commandWord_eq_ofNat 4 (pairArg_toNat x y)

theorem mapcArg_toNat (len c₁ c₂ : BitVec 8) :
    ((0 : BitVec 40) ++ (len ++ (c₁ ++ c₂))).toNat = len.toNat * 2 ^ 16 + (c₁.toNat * 2 ^ 8 + c₂.toNat) := by
  rw [zero_append_toNat, append_toNat, append_toNat]

theorem encode_mapc (len c₁ c₂ : BitVec 8) : encode (.mapc len c₁ c₂) =
    BitVec.ofNat 67 (2 * 2 ^ 64 + len.toNat * 2 ^ 16 + c₁.toNat * 2 ^ 8 + c₂.toNat) := by
  rw [add_assoc, add_assoc]
  exact commandWord_eq_ofNat 2 (mapcArg_toNat len c₁ c₂)

theorem encode_cls (re im : Component) :
    encode (.cls re im) = BitVec.ofNat 67 (5 * 2 ^ 64 + re.toNat * 2 ^ 32 + im.toNat) := by
  rw [add_assoc]
  exact commandWord_eq_ofNat 5 (append_toNat re im)

/-! ### Pair operands -/

/-- The character of a bit is the one binary character that stands for it (R40). -/
theorem eq_b2c_iff (c : CharCode) (b : Bool) : c = b2c hardware b ↔ isBinaryCode c = true ∧ (c == 0x31) = b := by
  have hbinary : isBinaryCode c = true ↔ c = 0x30 ∨ c = 0x31 := by simp [isBinaryCode]
  constructor
  · rintro rfl
    revert b
    decide
  · rintro ⟨hc, rfl⟩
    obtain rfl | rfl := hbinary.1 hc <;> rfl

theorem text_toBits_eq_some_iff (a b : CharCode) (x y : Bool) :
    (PairOperand.text [a, b]).toBits = some (x, y) ↔ a = b2c hardware x ∧ b = b2c hardware y := by
  rw [eq_b2c_iff, eq_b2c_iff, PairOperand.toBits]
  rw [Option.ite_none_right_eq_some, Bool.and_eq_true, Option.some.injEq, Prod.mk.injEq]
  exact and_and_and_comm

theorem bits_toBits_eq_some_iff (xy : Pair) (x y : Bool) :
    (PairOperand.bits xy).toBits = some (x, y) ↔ xy = pairOf x y := by
  revert xy x y
  decide

/-- A pair operand gives two bits exactly as the text of their characters or as the two bits. -/
theorem toBits_eq_some_iff (p : PairOperand) (x y : Bool) :
    p.toBits = some (x, y) ↔ p = .text [b2c hardware x, b2c hardware y] ∨ p = .bits (pairOf x y) := by
  match p with
  | .bits xy => simpa using bits_toBits_eq_some_iff xy x y
  | .text [a, b] => simpa using text_toBits_eq_some_iff a b x y
  | .text [] | .text [_] | .text (_ :: _ :: _ :: _) => simp [PairOperand.toBits]

/-! ### Written commands -/

theorem romrd_toInstr_of_lt {k : ℕ} (hk : k < 4) : ∃ i, (Written.romrd k).toInstr = some i ∧ encode i = BitVec.ofNat 67 k := by
  refine ⟨_, if_pos hk, ?_⟩
  rw [encode_romrd, BitVec.toNat_ofNat, Nat.mod_eq_of_lt hk]

theorem mapc_toInstr_of_lt {len c₁ c₂ : ℕ} (h : len < 256 ∧ c₁ < 256 ∧ c₂ < 256) :
    ∃ i, (Written.mapc len c₁ c₂).toInstr = some i ∧
      encode i = BitVec.ofNat 67 (2 * 2 ^ 64 + len * 2 ^ 16 + c₁ * 2 ^ 8 + c₂) := by
  refine ⟨_, if_pos h, ?_⟩
  obtain ⟨hlen, hfirst, hsecond⟩ := h
  rw [encode_mapc, BitVec.toNat_ofNat, BitVec.toNat_ofNat, BitVec.toNat_ofNat, Nat.mod_eq_of_lt hlen,
    Nat.mod_eq_of_lt hfirst, Nat.mod_eq_of_lt hsecond]

theorem cls_toInstr_of_none {a b : ComponentOperand} (h : a.toWord = none ∨ b.toWord = none) :
    (Written.cls a b).toInstr = none := by
  rw [Written.toInstr]
  obtain ha | hb := h
  · rw [ha]
    rfl
  · rw [hb]
    exact Option.bind_fun_none _

theorem pair_toInstr_of_some {p : PairOperand} {x y : Bool} (hp : p.toBits = some (x, y)) :
    (Written.map p).toInstr = some (.map x y) ∧ (Written.enc p).toInstr = some (.enc x y) := by
  simp [Written.toInstr, hp]

theorem pair_toInstr_of_none {p : PairOperand} (hp : p.toBits = none) :
    (Written.map p).toInstr = none ∧ (Written.enc p).toInstr = none := by
  simp [Written.toInstr, hp]

/-- Settles O14: each form's check and its word, and for a real the exact word of its value. -/
theorem writtenCommandsStandForTheirValues : Obligations.WrittenCommandsStandForTheirValues := by
  refine ⟨fun k => ⟨romrd_toInstr_of_lt, ?_⟩, toBits_eq_some_iff, ?_, fun p => pair_toInstr_of_none,
    fun len c₁ c₂ => ⟨mapc_toInstr_of_lt, ?_⟩, ⟨rfl, encode_begin⟩, ?_,
    fun a b => cls_toInstr_of_none, fun w => rfl, fun q w => val_of_wordOfReal, ?_⟩
  · exact fun hk => if_neg (by omega)
  · intro p x y hp
    obtain ⟨hmap, henc⟩ := pair_toInstr_of_some hp
    exact ⟨hmap, encode_map x y, henc, encode_enc x y⟩
  · exact fun hwide => if_neg (by omega)
  · intro a b re im ha hb
    exact ⟨by simp [Written.toInstr, ha, hb], encode_cls re im⟩
  · intro w q hval
    obtain ⟨w', hw'⟩ := wordOfReal_of_val hval
    exact ⟨w', hw', val_of_wordOfReal hw'⟩

end Sys2Proof
end

section
/-! Commands that only answer (spec/10_state.md R13), and ROMRD among them (spec/40_rom_read.md R50). -/

namespace Sys2Proof.Machine

/-- The frame of a command other than `BEGIN` and `ENC`: its response is added to the state, and nothing else is written. -/
theorem exec_eq_emit_of_not_writer {i : Instr} (s : State) (hbegin : i ≠ .begin) (henc : isEnc i = false) :
    exec i s = .next (s.emit (responseTo s.cur i)) := by
  have hcur : (responseTo s.cur i).cur = s.cur := (responseTo_cur s.cur i).trans (nextCur_of_not_writer s.cur hbegin henc)
  have hwrite : s.setCur (responseTo s.cur i).cur = s := congrArg s.setCur hcur
  rw [exec_eq_emit_responseTo, hwrite]

/-- Settles O17: the argument's low field is the index, and `ROMRD` is a command that only answers. -/
theorem romrdAnswersTheEntry : Obligations.RomrdAnswersTheEntry :=
  ⟨decode_romrd_fields, fun _ s => exec_eq_emit_of_not_writer s Instr.noConfusion rfl⟩

end Sys2Proof.Machine
end

section
/-! The mapper (spec/41_mapper.md R55 to R62): MAP and MAPC only answer, and a mapped pair is the ROM point of the complement
label. -/

namespace Sys2Proof.Machine

/-- Settles O18: the argument's low bits are the pair, and `MAP` is a command that only answers. -/
theorem mapAnswersTheSymbol : Obligations.MapAnswersTheSymbol :=
  ⟨decode_map_fields, fun _ _ s => exec_eq_emit_of_not_writer s Instr.noConfusion rfl⟩

theorem exec_mapc (len c₁ c₂ : BitVec 8) (s : State) :
    exec (.mapc len c₁ c₂) s = .next (s.emit (responseTo s.cur (.mapc len c₁ c₂))) :=
  exec_eq_emit_of_not_writer s Instr.noConfusion rfl

/-- The length decides alone: the characters are not looked at (R59). -/
theorem responseTo_mapc_of_ne_two (cur : Index) {len : BitVec 8} (c₁ c₂ : CharCode) (hlen : len ≠ 2) :
    responseTo cur (.mapc len c₁ c₂) = errorRsp cur .len :=
  if_pos hlen

theorem responseTo_mapc_two (cur : Index) (c₁ c₂ : CharCode) :
    responseTo cur (.mapc 2 c₁ c₂) = responseTo cur (.map (c2b hardware c₁) (c2b hardware c₂)) :=
  rfl

/-- The axis of a character asks whether it is 0x31, and nothing else (R40, R60). -/
theorem axis_c2b (c : CharCode) : axis (c2b hardware c) = if c = 0x31 then 0xBF800000 else 0x3F800000 := by
  have hone : c2b hardware c = true ↔ c = 0x31 := beq_iff_eq
  exact if_congr hone rfl rfl

/-- Settles O20: the two commands have one response, and neither writes anything else. -/
theorem mapcOfTwoIsMap : Obligations.MapcOfTwoIsMap := by
  intro c₁ c₂ s
  rw [exec_eq_emit_responseTo, exec_eq_emit_responseTo, responseTo_mapc_two]

/-- Settles O19: of length 2 it is `MAP` of the characters' bits, of any other length the error. -/
theorem mapcMapsTwoCharactersOrErrs : Obligations.MapcMapsTwoCharactersOrErrs := by
  refine ⟨decode_mapc_fields, fun c₁ c₂ s => ?_, fun len c₁ c₂ s hlen => ?_⟩
  · rw [← axis_c2b, ← axis_c2b]
    exact exec_mapc 2 c₁ c₂ s
  · rw [exec_mapc, responseTo_mapc_of_ne_two s.cur c₁ c₂ hlen]
    rfl

/-- The label of an entry is its index (R21). -/
theorem readRom_label (k : Index) : (readRom hardware k).label = k := by
  revert k
  decide

theorem complement_pairOf_bits (b₁ b₀ : Bool) :
    (~~~pairOf b₁ b₀).getLsbD 1 = !b₁ ∧ (~~~pairOf b₁ b₀).getLsbD 0 = !b₀ := by
  revert b₁ b₀
  decide

/-- The mapper puts a 1 bit on the negative axis (R55), the ROM a 1 bit of a label on the positive one (R23). -/
theorem axis_eq_rom_axis_not (b : Bool) : axis b = if !b then pos1 else neg1 := by
  cases b <;> rfl

/-- The point of an entry whose label is the complement of a pair is the pair's symbol (R62). -/
theorem readRom_point_of_label_eq_complement {b₁ b₀ : Bool} {k : Index}
    (hk : (readRom hardware k).label = ~~~pairOf b₁ b₀) :
    (sym b₁ b₀).re = (readRom hardware k).re ∧ (sym b₁ b₀).im = (readRom hardware k).im := by
  obtain ⟨-, -, -, haxis⟩ := of_decide_eq_true hardware_romWf
  obtain ⟨hre, him⟩ := haxis k
  obtain ⟨hfirst, hsecond⟩ := complement_pairOf_bits b₁ b₀
  rw [hre, him, hk, hfirst, hsecond]
  exact ⟨axis_eq_rom_axis_not b₁, axis_eq_rom_axis_not b₀⟩

/-- Settles O21: the entry is the one at the complement, labels being indices, and its point is the mapped symbol. -/
theorem mapperImageIsRomUnderComplement : Obligations.MapperImageIsRomUnderComplement := by
  intro b₁ b₀
  have hk := readRom_label (~~~pairOf b₁ b₀)
  obtain ⟨hre, him⟩ := readRom_point_of_label_eq_complement hk
  refine ⟨_, hk, fun j hj => (readRom_label j).symm.trans hj, fun s => ?_⟩
  exact ⟨_, _, exec_eq_emit_responseTo (.map b₁ b₀) s, rfl, hre, him⟩

end Sys2Proof.Machine
end

section
/-! The two commands that write the cursor (spec/42_encoder_cursor.md R65 to R69): BEGIN zeroes it, ENC advances it and answers
as MAP does. -/

namespace Sys2Proof.Machine

/-- The advance as R69 writes it, on the number in the register. -/
theorem advance_eq_ofNat (cur : Index) : advance cur = BitVec.ofNat 2 ((cur.toNat + 1) % 4) := by
  rw [← advance_toNat, BitVec.ofNat_toNat, BitVec.setWidth_eq]

/-- Settles O22: the argument is not read, and the response to `BEGIN` is the zero word. -/
theorem beginZeroesTheCursor : Obligations.BeginZeroesTheCursor :=
  ⟨decode_begin_word, exec_eq_emit_responseTo .begin, by decide⟩

/-- Settles O23: the argument's low bits are the pair, and the new `CUR` and the field `cur` are the one advance. -/
theorem encMapsAndAdvances : Obligations.EncMapsAndAdvances := by
  refine ⟨decode_enc_fields, fun b₁ b₀ s => ?_⟩
  rw [← advance_eq_ofNat]
  exact exec_eq_emit_responseTo (.enc b₁ b₀) s

/-- `ENC` answers as `MAP` does but for the field `cur`, at any two cursor values (R68). -/
theorem statusAndData_responseTo_enc (cur₁ cur₂ : Index) (b₁ b₀ : Bool) :
    statusAndData (responseTo cur₁ (.enc b₁ b₀)) = statusAndData (responseTo cur₂ (.map b₁ b₀)) :=
  rfl

/-- Settles O24: either answer is `responseTo` of the command. -/
theorem encSymbolIsMapSymbol : Obligations.EncSymbolIsMapSymbol := by
  intro b₁ b₀ s₁ s₂
  obtain ⟨hstatus, hdata⟩ := Prod.mk.inj (statusAndData_responseTo_enc s₁.cur s₂.cur b₁ b₀)
  exact ⟨_, _, _, _, exec_eq_emit_responseTo (.enc b₁ b₀) s₁, rfl, exec_eq_emit_responseTo (.map b₁ b₀) s₂, rfl,
    hstatus, hdata⟩

end Sys2Proof.Machine
end

section
/-! What a pass over given commands answers, and the `CUR` it leaves (spec/44_passes.md R95). -/

namespace Sys2Proof.Machine

/-- The responses to a list of presented commands from the cursor value `cur`. -/
def passResponses (cur : Index) (is : List Instr) : List Rsp :=
  responsesTo cur (is.map fun i => .command (encode i))

@[simp] theorem passResponses_nil (cur : Index) : passResponses cur [] = [] := rfl

@[simp] theorem passResponses_cons (cur : Index) (i : Instr) (is : List Instr) :
    passResponses cur (i :: is) = responseTo cur i :: passResponses (nextCur cur i) is := by
  rw [passResponses, List.map_cons, responsesTo, decode_encode, responseTo_cur]
  rfl

@[simp] theorem length_passResponses (cur : Index) (is : List Instr) : (passResponses cur is).length = is.length := by
  induction is generalizing cur with
  | nil => rfl
  | cons i is ih => rw [passResponses_cons, List.length_cons, List.length_cons, ih]

/-- The field `cur` of a response of a pass is `CUR` after the commands up to its own. -/
theorem cur_getElem_passResponses (cur : Index) (is : List Instr) {j : Nat} (hj : j < (passResponses cur is).length) :
    (passResponses cur is)[j].cur = (is.take (j + 1)).foldl nextCur cur := by
  induction is generalizing cur j with
  | nil => cases hj
  | cons i is ih =>
    simp only [passResponses_cons, List.take_succ_cons, List.foldl_cons]
    cases j with
    | zero => exact responseTo_cur cur i
    | succ j => exact ih _ _

/-- The first of the presented commands is executed, the others stay presented. -/
theorem step_presentCommands_cons (i : Instr) (is : List Instr) (s : State) :
    step (presentCommands (i :: is) s) =
      .next (presentCommands is ((s.setCur (nextCur s.cur i)).emit (responseTo s.cur i))) := by
  rw [presentCommands, List.map_cons, List.cons_append, step_command, decode_encode, exec_eq_emit_responseTo, setEvents_cur,
    responseTo_cur]
  rfl

theorem cur_of_runFor_presentCommands {is : List Instr} {s t : State}
    (hrun : runFor is.length (presentCommands is s) = .next t) : t.cur = is.foldl nextCur s.cur := by
  induction is generalizing s with
  | nil =>
    cases hrun
    rfl
  | cons i is ih =>
    rw [List.length_cons, runFor_succ_of_next (step_presentCommands_cons i is s)] at hrun
    exact ih hrun

/-- A pass answers its commands one by one, `CUR` goes through them, and the events behind them stay pending. -/
theorem runPass_eq_passResponses (is : List Instr) (s : State) :
    ∃ t, runPass is s = some (passResponses s.cur is, t) ∧ t.cur = is.foldl nextCur s.cur ∧ t.events = s.events := by
  obtain ⟨t, hrun, hevents, hresponses⟩ := runFor_adds_responsesTo (is.map fun i => .command (encode i)) s.events s
  rw [List.length_map] at hrun
  refine ⟨t, ?_, cur_of_runFor_presentCommands hrun, hevents⟩
  have hdrop : t.responses.drop s.responses.length = passResponses s.cur is := by
    rw [hresponses, List.drop_left]
    rfl
  rw [runPass, presentCommands, hrun, ← hdrop]

end Sys2Proof.Machine
end

section
/-! The cursor as a count (spec/42_encoder_cursor.md R70): without BEGIN, `CUR` moves by the number of ENC commands. -/

namespace Sys2Proof.Machine

/-- A command other than `BEGIN` moves the cursor by one if it is an `ENC`, and not at all if it is not. -/
theorem nextCur_eq_add (cur : Index) {i : Instr} (hbegin : i ≠ .begin) :
    nextCur cur i = cur + BitVec.ofNat 2 (if isEnc i then 1 else 0) := by
  cases i with
  | begin => exact absurd rfl hbegin
  | enc a b => rfl
  | romrd | map | mapc | cls | reserved6 | reserved7 => exact (BitVec.add_zero cur).symm

/-- The invariant: after any commands without `BEGIN` the cursor has moved by the number of `ENC` commands among them. -/
theorem foldl_nextCur_eq_add_countP (cur : Index) {is : List Instr} (hbegin : .begin ∉ is) :
    is.foldl nextCur cur = cur + BitVec.ofNat 2 (is.countP isEnc) := by
  induction is generalizing cur with
  | nil => exact (BitVec.add_zero cur).symm
  | cons i is ih =>
    obtain ⟨hi, his⟩ := List.ne_and_not_mem_of_not_mem_cons hbegin
    rw [List.foldl_cons, ih _ his, nextCur_eq_add cur hi.symm, List.countP_cons, BitVec.add_assoc, ← BitVec.ofNat_add,
      Nat.add_comm]

/-- After `BEGIN` the cursor is the count itself, modulo 4. -/
theorem foldl_nextCur_begin_cons (cur : Index) {is : List Instr} (hbegin : .begin ∉ is) :
    (Instr.begin :: is).foldl nextCur cur = BitVec.ofNat 2 (is.countP isEnc % 4) := by
  calc (Instr.begin :: is).foldl nextCur cur
    _ = 0 + BitVec.ofNat 2 (is.countP isEnc) := foldl_nextCur_eq_add_countP 0 hbegin
    _ = BitVec.ofNat 2 (is.countP isEnc) := BitVec.zero_add _
    _ = BitVec.ofNat 2 (is.countP isEnc % 4) := BitVec.eq_of_toNat_eq (by simp)

/-- Settles O25: each response shows `CUR` after `BEGIN` and the commands up to its own, which is their count. -/
theorem cursorCountsEncodings : Obligations.CursorCountsEncodings := by
  intro is s hbegin
  obtain ⟨t, hpass, hcur, -⟩ := runPass_eq_passResponses (.begin :: is) s
  refine ⟨_, t, hpass, length_passResponses _ _, fun j hj => ?_, hcur.trans (foldl_nextCur_begin_cons s.cur hbegin)⟩
  have hprefix : .begin ∉ is.take j := fun hmem => hbegin (List.mem_of_mem_take hmem)
  rw [cur_getElem_passResponses, List.take_succ_cons, foldl_nextCur_begin_cons s.cur hprefix]

end Sys2Proof.Machine
end

section
/-! The scan (spec/43_classifier.md R77, R90): it compares distances and nothing else, and its winner is the least minimiser. -/

namespace Sys2Proof.Machine

/-! ### The scan as a choice of indices -/

section
variable {α : Type} [LT α] [DecidableLT α]

/-- The index one turn of the scan keeps: the new one on strictly less. That a turn on the distances `d` keeps it is
`scanTurn_at`. -/
def nearer (d : Index → α) (best k : Index) : Index := if d k < d best then k else best

/-- A turn keeps the distance of the index it keeps. -/
theorem scanTurn_at (d : Index → α) (best k : Index) :
    scanTurn (best, d best) k (d k) = (nearer d best k, d (nearer d best k)) := by
  rw [scanTurn, nearer]
  split <;> rfl

theorem argmin_eq_nearer (d : Index → α) :
    argmin (d 0) (d 1) (d 2) (d 3) = nearer d (nearer d (nearer d 0 1) 2) 3 := by
  rw [argmin, scanTurn_at, scanTurn_at, scanTurn_at]

end

/-- Distances in the same order have the same winner. -/
theorem argmin_congr {α β : Type} [LT α] [DecidableLT α] [LT β] [DecidableLT β] {d : Index → α} {e : Index → β}
    (horder : ∀ j k, d j < d k ↔ e j < e k) : argmin (d 0) (d 1) (d 2) (d 3) = argmin (e 0) (e 1) (e 2) (e 3) := by
  have hturn (best k : Index) : nearer d best k = nearer e best k := if_congr (horder k best) rfl rfl
  simp only [argmin_eq_nearer, hturn]

/-! ### The least minimiser -/

section
variable {α : Type} [LinearOrder α]

/-- Of the first `n` entries, `b` is the one with the least distance, and the first such (R77). -/
def IsFirstNearest (d : Index → α) (n : ℕ) (b : Index) : Prop :=
  b.toNat < n ∧ ∀ j : Index, j.toNat < n → d b ≤ d j ∧ (j.toNat < b.toNat → d b < d j)

/-- The first nearest entry is one entry. -/
theorem IsFirstNearest.unique {d : Index → α} {n : ℕ} {b c : Index} (hb : IsFirstNearest d n b)
    (hc : IsFirstNearest d n c) : b = c := by
  obtain ⟨hbn, hbmin⟩ := hb
  obtain ⟨hcn, hcmin⟩ := hc
  have hcb : ¬ c.toNat < b.toNat := fun h => ((hbmin c hcn).2 h).not_ge (hcmin b hbn).1
  have hbc : ¬ b.toNat < c.toNat := fun h => ((hcmin b hbn).2 h).not_ge (hbmin c hcn).1
  exact BitVec.eq_of_toNat_eq (by omega)

variable [DecidableLT α]

/-- The invariant of the scan: a turn at the next entry keeps it. -/
theorem nearer_isFirstNearest {d : Index → α} {b k : Index} (hb : IsFirstNearest d k.toNat b) :
    IsFirstNearest d (k.toNat + 1) (nearer d b k) := by
  obtain ⟨hbk, hmin⟩ := hb
  have hseen {j : Index} (hj : j.toNat < k.toNat + 1) : j.toNat < k.toNat ∨ j = k :=
    (Nat.lt_succ_iff_lt_or_eq.1 hj).imp_right BitVec.eq_of_toNat_eq
  rw [nearer]
  split
  next hless =>
    refine ⟨Nat.lt_succ_self _, fun j hj => ?_⟩
    obtain hold | rfl := hseen hj
    · have hlt : d k < d j := hless.trans_le (hmin j hold).1
      exact ⟨hlt.le, fun _ => hlt⟩
    · exact ⟨le_rfl, fun hjj => absurd hjj (lt_irrefl _)⟩
  next hkeep =>
    refine ⟨Nat.lt_succ_of_lt hbk, fun j hj => ?_⟩
    obtain hold | rfl := hseen hj
    · exact hmin j hold
    · exact ⟨not_lt.1 hkeep, fun hjb => absurd hjb hbk.not_gt⟩

theorem argmin_isFirstNearest (d : Index → α) : IsFirstNearest d 4 (argmin (d 0) (d 1) (d 2) (d 3)) := by
  have hstart : IsFirstNearest d 1 0 := by
    refine ⟨Nat.one_pos, fun j hj => ?_⟩
    obtain rfl : j = 0 := BitVec.eq_of_toNat_eq (Nat.lt_one_iff.1 hj)
    exact ⟨le_rfl, fun hjj => absurd hjj (lt_irrefl _)⟩
  rw [argmin_eq_nearer]
  exact nearer_isFirstNearest (k := 3) (nearer_isFirstNearest (k := 2) (nearer_isFirstNearest (k := 1) hstart))

theorem argmin_eq_of_isFirstNearest {d : Index → α} {b : Index} (hb : IsFirstNearest d 4 b) :
    argmin (d 0) (d 1) (d 2) (d 3) = b :=
  (argmin_isFirstNearest d).unique hb

end

/-- Settles O29: the invariant of the scan after its last turn. -/
theorem argminIsLeastMinimiser : Obligations.ArgminIsLeastMinimiser := by
  intro α _ d
  obtain ⟨-, hmin⟩ := argmin_isFirstNearest d
  refine ⟨fun k => (hmin k k.isLt).1, fun k hk => ?_⟩
  exact not_lt.1 fun hlt => ((hmin k k.isLt).2 hlt).not_ge (hk _)

/-- Settles O30: entry 0 replaces the infinity, and the scan goes on as from entry 0, on distances in the same order. -/
theorem argminIndependentOfStart : Obligations.ArgminIndependentOfStart := by
  intro start d
  have hfirst : scanTurn (start, (⊤ : WithTop ℚ)) 0 (d 0 : WithTop ℚ) = (0, (d 0 : WithTop ℚ)) :=
    if_pos (WithTop.coe_lt_top (d 0))
  rw [argminFrom, hfirst]
  exact argmin_congr (d := fun k => (d k : WithTop ℚ)) fun _ _ => WithTop.coe_lt_coe

end Sys2Proof.Machine
end

section
/-! The exact squared distances (spec/43_classifier.md R75, R76), over the rationals and in the distance unit's units (M11). -/

namespace Sys2Proof.Machine

/-! ### The rational of a component word -/

theorem finiteVal_of_val {w : Component} {q : ℚ} (h : val w = .rat q) : finiteVal w = some q := by
  rw [finiteVal, h]

theorem finiteVal_of_finite {w : Component} (h : finite w = true) : finiteVal w = some ((scaled w : ℚ) / 2 ^ 149) :=
  finiteVal_of_val (val_eq_scaled ((finite_iff w).1 h))

theorem finiteVal_of_not_finite {w : Component} (h : finite w = false) : finiteVal w = none := by
  have hexp : expField w = 255 := by simpa [finite] using h
  rw [finiteVal]
  by_cases hfrac : fracField w = 0
  · rw [val_inf hexp hfrac]
  · rw [val_nan hexp hfrac]

/-! ### Distances -/

theorem exactD2_of_finiteVal {s : Symbol} {e : RomEntry} {x y p q : ℚ} (hx : finiteVal s.re = some x)
    (hy : finiteVal s.im = some y) (hp : finiteVal e.re = some p) (hq : finiteVal e.im = some q) :
    exactD2 s e = some ((x - p) ^ 2 + (y - q) ^ 2) := by
  simp [exactD2, hx, hy, hp, hq]

theorem exactD2_of_not_finite {s : Symbol} (e : RomEntry) (h : finite s.re = false ∨ finite s.im = false) :
    exactD2 s e = none := by
  obtain hre | him := h
  · simp [exactD2, finiteVal_of_not_finite hre]
  · simp [exactD2, finiteVal_of_not_finite him]

theorem finite_of_exactD2 {s : Symbol} {e : RomEntry} {d : ℚ} (h : exactD2 s e = some d) :
    finite s.re = true ∧ finite s.im = true := by
  by_contra hfinite
  have hnone := exactD2_of_not_finite (s := s) e (by simpa [imp_iff_not_or] using hfinite)
  cases hnone.symm.trans h

/-- Both components of every entry are finite (R21). -/
theorem readRom_finite (k : Index) :
    finite (readRom hardware k).re = true ∧ finite (readRom hardware k).im = true := by
  revert k
  decide

/-- The distance unit counts the exact distance in units of 2^-298 (log 5). -/
theorem exactD2_eq_dist {s : Symbol} (hre : finite s.re = true) (him : finite s.im = true) (k : Index) :
    exactD2 s (readRom hardware k) = some ((hardware.dist s (readRom hardware k) : ℚ) / 2 ^ 298) := by
  obtain ⟨hp, hq⟩ := readRom_finite k
  have hunit : (2 : ℚ) ^ 298 = (2 ^ 149) ^ 2 := pow_mul 2 149 2
  rw [exactD2_of_finiteVal (finiteVal_of_finite hre) (finiteVal_of_finite him) (finiteVal_of_finite hp)
    (finiteVal_of_finite hq), div_sub_div_same, div_sub_div_same, div_pow, div_pow, ← add_div, hunit, hardware_dist,
    distExact]
  push_cast
  rfl

/-! ### Distances to the ROM points, axis by axis -/

/-- The coordinate a label bit stands for in the ROM: '1' is on the positive axis (R23). -/
def axisValue (b : Bool) : ℚ := if b then 1 else -1

/-- One axis's share of a squared distance: from the value `x` to the coordinate of the bit `b`. -/
def axisD2 (x : ℚ) (b : Bool) : ℚ := (x - axisValue b) ^ 2

/-- The squared distance from `(x, y)` to the point of entry `k`. That it is `exactD2` is `exactD2_eq_pointD2`. -/
def pointD2 (x y : ℚ) (k : Index) : ℚ := axisD2 x (k.getLsbD 1) + axisD2 y (k.getLsbD 0)

theorem finiteVal_axis (b : Bool) : finiteVal (if b then pos1 else neg1) = some (axisValue b) := by
  cases b with
  | false => exact finiteVal_of_val val_neg1
  | true => exact finiteVal_of_val val_pos1

/-- The point of entry `k` is given by the bits of `k`, which is its label. -/
theorem finiteVal_readRom (k : Index) :
    finiteVal (readRom hardware k).re = some (axisValue (k.getLsbD 1)) ∧
      finiteVal (readRom hardware k).im = some (axisValue (k.getLsbD 0)) := by
  obtain ⟨-, -, -, haxis⟩ := of_decide_eq_true hardware_romWf
  obtain ⟨hre, him⟩ := haxis k
  rw [hre, him, readRom_label]
  exact ⟨finiteVal_axis _, finiteVal_axis _⟩

theorem exactD2_eq_pointD2 {s : Symbol} {x y : ℚ} (hx : finiteVal s.re = some x) (hy : finiteVal s.im = some y)
    (k : Index) : exactD2 s (readRom hardware k) = some (pointD2 x y k) := by
  obtain ⟨hp, hq⟩ := finiteVal_readRom k
  exact exactD2_of_finiteVal hx hy hp hq

theorem axisD2_false (x : ℚ) : axisD2 x false = (x + 1) ^ 2 := congrArg (· ^ 2) (sub_neg_eq_add x 1)

theorem axisD2_true (x : ℚ) : axisD2 x true = (x - 1) ^ 2 := rfl

/-- Settles O27: the four distances axis by axis, and each in units. -/
theorem distanceUnitIsExact : Obligations.DistanceUnitIsExact := by
  refine ⟨fun s hre him => ?_, fun s e₁ e₂ hre him => ?_, fun s k => exactD2_of_not_finite _⟩
  · have hx := val_eq_scaled ((finite_iff _).1 hre)
    have hy := val_eq_scaled ((finite_iff _).1 him)
    have hdistance := exactD2_eq_pointD2 (finiteVal_of_val hx) (finiteVal_of_val hy)
    refine ⟨_, _, hx, hy, ?_, ?_, ?_, ?_, exactD2_eq_dist hre him⟩
    all_goals
      rw [hdistance, pointD2]
      simp [axisD2_false, axisD2_true]
  · rw [hardware_dist, distExact, distExact, hre, him]

/-! ### The winner -/

theorem eq_dist_of_exactD2 {s : Symbol} {k : Index} {q : ℚ} (h : exactD2 s (readRom hardware k) = some q) :
    q = (hardware.dist s (readRom hardware k) : ℚ) / 2 ^ 298 := by
  obtain ⟨hre, him⟩ := finite_of_exactD2 h
  exact Option.some.inj (h.symm.trans (exactD2_eq_dist hre him k))

theorem exactD2_nonneg {s : Symbol} {k : Index} {q : ℚ} (h : exactD2 s (readRom hardware k) = some q) : 0 ≤ q := by
  have hsquares : 0 ≤ hardware.dist s (readRom hardware k) := add_nonneg (sq_nonneg _) (sq_nonneg _)
  rw [eq_dist_of_exactD2 h]
  exact div_nonneg (Int.cast_nonneg hsquares) (by positivity)

/-- The classifier compares integers, in the order of the exact distances they count. -/
theorem nearest_eq_argmin_exactD2 {s : Symbol} {d : Index → ℚ} (hd : ∀ k, exactD2 s (readRom hardware k) = some (d k)) :
    nearest hardware s = argmin (d 0) (d 1) (d 2) (d 3) := by
  refine argmin_congr (d := fun k => hardware.dist s (readRom hardware k)) fun j k => ?_
  rw [eq_dist_of_exactD2 (hd j), eq_dist_of_exactD2 (hd k), div_lt_div_iff_of_pos_right (by positivity), Int.cast_lt]

/-- Settles O28: the square root keeps the order of the distances, which are not negative. -/
theorem squareRootSelectsSameWinner : Obligations.SquareRootSelectsSameWinner := by
  intro s d hd
  rw [nearest_eq_argmin_exactD2 hd]
  refine argmin_congr (e := fun k => Real.sqrt (d k : ℝ)) fun j k => ?_
  rw [Real.sqrt_lt_sqrt_iff (Rat.cast_nonneg.2 (exactD2_nonneg (hd j))), Rat.cast_lt]

end Sys2Proof.Machine
end

section
/-! The command CLS (spec/43_classifier.md R80, R81): what it answers, and that it only answers. -/

namespace Sys2Proof.Machine

theorem exec_cls_of_finite {re im : Component} (s : State) (hre : finite re = true) (him : finite im = true) :
    exec (.cls re im) s = .next (s.emit (okRsp s.cur (winnerData hardware (nearest hardware ⟨re, im⟩)))) := by
  rw [exec_eq_emit_of_not_writer s Instr.noConfusion rfl, responseTo, hre, him]
  rfl

theorem exec_cls_of_not_finite {re im : Component} (s : State) (h : finite re = false ∨ finite im = false) :
    exec (.cls re im) s = .next (s.emit (errorRsp s.cur .nonfinite)) := by
  have hcheck : (finite re && finite im) = false := Bool.and_eq_false_iff.2 h
  rw [exec_eq_emit_of_not_writer s Instr.noConfusion rfl, responseTo, hcheck]
  rfl

theorem not_finite_iff (w : Component) : finite w = false ↔ expField w = 255 := by simp [finite]

/-- Settles O31: the distances are those the unit counts, and their scan is the classifier's. -/
theorem clsClassifiesOrErrs : Obligations.ClsClassifiesOrErrs := by
  refine ⟨decode_cls_fields, fun re im s hre him => ?_, fun re im s h => ?_⟩
  · rw [← finite_iff] at hre him
    have hd := exactD2_eq_dist (s := ⟨re, im⟩) hre him
    refine ⟨_, hd, ?_⟩
    rw [exec_cls_of_finite s hre him, nearest_eq_argmin_exactD2 hd]
    rfl
  · rw [← not_finite_iff, ← not_finite_iff] at h
    exact exec_cls_of_not_finite s h

end Sys2Proof.Machine
end

section
/-! The winner in closed form (spec/43_classifier.md R82, R84, R86): on each axis the coordinate on the value's side is the
nearer one, and at 0 the lower bit is taken. -/

namespace Sys2Proof.Machine

/-! ### The sign of a value, on the word -/

/-- The bits below the sign are the exponent and fraction fields (R37). -/
theorem magnitude_bits_toNat (w : Component) : (w.extractLsb' 0 31).toNat = expField w * 2 ^ 23 + fracField w := by
  have hfields : w.extractLsb' 23 8 ++ w.extractLsb' 0 23 = w.extractLsb' 0 31 :=
    BitVec.extractLsb'_append_extractLsb'_eq_extractLsb' rfl
  rw [← hfields, append_toNat, expField, fracField]

theorem scaledMagnitude_pos_iff (w : Component) : 0 < scaledMagnitude w ↔ w.extractLsb' 0 31 ≠ 0 := by
  have hbits : w.extractLsb' 0 31 ≠ 0 ↔ expField w * 2 ^ 23 + fracField w ≠ 0 := by
    rw [← magnitude_bits_toNat]
    exact BitVec.toNat_ne_iff_ne.symm
  rw [hbits, scaledMagnitude]
  split
  next hexp => omega
  next hexp => simp [hexp, Nat.pos_iff_ne_zero]

theorem scaled_pos_iff (w : Component) : 0 < scaled w ↔ w.getLsbD 31 = false ∧ w.extractLsb' 0 31 ≠ 0 := by
  rw [← scaledMagnitude_pos_iff, scaled, signBit]
  cases w.getLsbD 31 <;> simp

/-- A value is positive when the sign bit is 0 and another bit is not (R82). -/
theorem val_pos_iff (w : Component) :
    0 < (scaled w : ℚ) / 2 ^ 149 ↔ w.getLsbD 31 = false ∧ w.extractLsb' 0 31 ≠ 0 := by
  rw [← scaled_pos_iff, div_pos_iff_of_pos_right (by positivity), Int.cast_pos]

/-! ### The nearer coordinate of an axis -/

theorem axisD2_true_lt {x : ℚ} (hx : 0 < x) : axisD2 x true < axisD2 x false := by
  rw [axisD2_true, axisD2_false]
  linarith

theorem axisD2_false_le {x : ℚ} (hx : ¬ 0 < x) : axisD2 x false ≤ axisD2 x true := by
  rw [axisD2_true, axisD2_false]
  linarith

/-- The coordinate on the value's side is nearest. -/
theorem axisD2_sign_le (x : ℚ) (b : Bool) : axisD2 x (0 < x) ≤ axisD2 x b := by
  by_cases hx : 0 < x
  · rw [decide_eq_true hx]
    cases b with
    | false => exact (axisD2_true_lt hx).le
    | true => exact le_rfl
  · rw [decide_eq_false hx]
    cases b with
    | false => exact le_rfl
    | true => exact axisD2_false_le hx

/-- If that is the positive one, the other is farther. -/
theorem axisD2_sign_lt {x : ℚ} (hx : decide (0 < x) = true) : axisD2 x (0 < x) < axisD2 x false := by
  rw [hx]
  exact axisD2_true_lt (of_decide_eq_true hx)

/-! ### The nearest of the four points -/

theorem pairOf_bits (k : Index) : pairOf (k.getLsbD 1) (k.getLsbD 0) = k := by
  revert k
  decide

theorem pairOf_getLsbD (a b : Bool) : (pairOf a b).getLsbD 1 = a ∧ (pairOf a b).getLsbD 0 = b := by
  revert a b
  decide

/-- An index below another has a 0 bit where the other has a 1, in the first bit or else in the second. -/
theorem toNat_pairOf_lt {a b p q : Bool} (h : (pairOf a b).toNat < (pairOf p q).toNat) :
    (a = false ∧ p = true) ∨ (b = false ∧ q = true) := by
  revert a b p q
  decide

/-- The signs of the two values are the bits of the first nearest point (R82). -/
theorem pairOf_signs_isFirstNearest (x y : ℚ) :
    IsFirstNearest (pointD2 x y) 4 (pairOf (0 < x) (0 < y)) := by
  refine ⟨BitVec.isLt _, fun j _ => ?_⟩
  obtain ⟨hfirst, hsecond⟩ := pairOf_getLsbD (0 < x) (0 < y)
  have hxle := axisD2_sign_le x (j.getLsbD 1)
  have hyle := axisD2_sign_le y (j.getLsbD 0)
  rw [pointD2, pointD2, hfirst, hsecond]
  refine ⟨add_le_add hxle hyle, fun hlt => ?_⟩
  rw [← pairOf_bits j] at hlt
  obtain ⟨hj, hx⟩ | ⟨hj, hy⟩ := toNat_pairOf_lt hlt
  · rw [hj]
    exact add_lt_add_of_lt_of_le (axisD2_sign_lt hx) hyle
  · rw [hj]
    exact add_lt_add_of_le_of_lt hxle (axisD2_sign_lt hy)

theorem nearest_eq_pairOf_signs {s : Symbol} {x y : ℚ} (hx : finiteVal s.re = some x) (hy : finiteVal s.im = some y) :
    nearest hardware s = pairOf (0 < x) (0 < y) :=
  calc nearest hardware s
    _ = argmin (pointD2 x y 0) (pointD2 x y 1) (pointD2 x y 2) (pointD2 x y 3) :=
      nearest_eq_argmin_exactD2 (exactD2_eq_pointD2 hx hy)
    _ = pairOf (0 < x) (0 < y) := argmin_eq_of_isFirstNearest (pairOf_signs_isFirstNearest x y)

/-! ### The answer of CLS by signs -/

theorem ofNat_bits_eq_pairOf (a b : Bool) :
    BitVec.ofNat 2 (2 * (if a then 1 else 0) + (if b then 1 else 0)) = pairOf a b := by
  revert a b
  decide

/-- R82 writes the index with two Iverson brackets. -/
theorem ofNat_brackets_eq_pairOf (p q : Prop) [Decidable p] [Decidable q] :
    BitVec.ofNat 2 (2 * (if p then 1 else 0) + (if q then 1 else 0)) = pairOf p q := by
  simpa only [decide_eq_true_eq] using ofNat_bits_eq_pairOf p q

theorem complement_pairOf (a b : Bool) : ~~~pairOf a b = pairOf (!a) (!b) := by
  revert a b
  decide

theorem not_decide_pos (x : ℚ) : (!decide (0 < x)) = decide (x ≤ 0) := by
  rw [← decide_not, decide_eq_decide, not_lt]

/-- The data of the winner by signs: its index is also its label (R82). -/
theorem winnerData_pairOf_signs (x y : ℚ) : winnerData hardware (pairOf (0 < x) (0 < y)) =
    { idx := BitVec.ofNat 2 (2 * (if 0 < x then 1 else 0) + (if 0 < y then 1 else 0)),
      label := pairOf (0 < x) (0 < y), bits := pairOf (x ≤ 0) (y ≤ 0) } := by
  rw [winnerData, complementLabel, readRom_label, complement_pairOf, not_decide_pos, not_decide_pos, ofNat_brackets_eq_pairOf]

/-- Settles O32: the winner is at the signs of the values, and those are the signs of the words. -/
theorem clsClosedForm : Obligations.ClsClosedForm := by
  intro re im s hre him
  refine ⟨_, _, val_eq_scaled ((finite_iff re).1 hre), val_eq_scaled ((finite_iff im).1 him), val_pos_iff re,
    val_pos_iff im, ?_⟩
  rw [exec_cls_of_finite s hre him,
    nearest_eq_pairOf_signs (s := ⟨re, im⟩) (finiteVal_of_finite hre) (finiteVal_of_finite him), winnerData_pairOf_signs]
  rfl

/-! ### The ROM points themselves -/

/-- The coordinates of an axis are at distance 0 or 2. -/
theorem axisD2_axisValue (a b : Bool) : axisD2 (axisValue a) b = if a = b then 0 else 4 := by
  cases a <;> cases b <;> norm_num [axisD2, axisValue]

theorem axisValue_pos (b : Bool) : decide (0 < axisValue b) = b := by
  cases b <;> norm_num [axisValue]

/-- The entries of the table of R86: 4 for each axis on which two points differ. That they are the squared distances is
`exactD2_readRom`. -/
def pointGap (j k : Index) : ℕ :=
  (if j.getLsbD 1 = k.getLsbD 1 then 0 else 4) + (if j.getLsbD 0 = k.getLsbD 0 then 0 else 4)

theorem exactD2_readRom (j k : Index) :
    exactD2 ⟨(readRom hardware j).re, (readRom hardware j).im⟩ (readRom hardware k) = some (pointGap j k : ℚ) := by
  obtain ⟨hre, him⟩ := finiteVal_readRom j
  rw [exactD2_eq_pointD2 (s := ⟨_, _⟩) hre him, pointD2, axisD2_axisValue, axisD2_axisValue, pointGap]
  push_cast
  rfl

/-- Settles O33: the table is that of `pointGap`, and the signs of a point are the bits of its index. -/
theorem romPointsAreTheirOwnNearest : Obligations.RomPointsAreTheirOwnNearest := by
  refine ⟨?_, fun j => ?_⟩
  · simp only [exactD2_readRom, List.map_cons, List.map_nil]
    rfl
  · obtain ⟨hre, him⟩ := finiteVal_readRom j
    rw [nearest_eq_pairOf_signs (s := ⟨_, _⟩) hre him, axisValue_pos, axisValue_pos, pairOf_bits]

end Sys2Proof.Machine
end

section
/-! The pairs of a text (spec/44_passes.md R96): adjacent characters paired up, and pairs put together again. -/

namespace Sys2Proof.Machine

/-- The text of a list of pairs, first character first. What it makes of `pairsOf` is `textOf_pairsOf`. -/
def textOf (ps : List (CharCode × CharCode)) : List CharCode := ps.flatMap fun p => [p.1, p.2]

@[simp] theorem textOf_cons (p : CharCode × CharCode) (ps : List (CharCode × CharCode)) :
    textOf (p :: ps) = p.1 :: p.2 :: textOf ps := rfl

theorem length_textOf (ps : List (CharCode × CharCode)) : (textOf ps).length = 2 * ps.length := by
  induction ps with
  | nil => rfl
  | cons p ps ih =>
    simp only [textOf_cons, List.length_cons, ih]
    omega

/-- Characters `2j` and `2j + 1` of a text of pairs are pair `j`. -/
theorem getElem?_textOf (ps : List (CharCode × CharCode)) (j : ℕ) :
    (textOf ps)[2 * j]? = ps[j]?.map Prod.fst ∧ (textOf ps)[2 * j + 1]? = ps[j]?.map Prod.snd := by
  induction ps generalizing j with
  | nil => exact ⟨rfl, rfl⟩
  | cons p ps ih =>
    cases j with
    | zero => exact ⟨rfl, rfl⟩
    | succ j => exact ih j

/-- A change of every character can be made pair by pair. -/
theorem map_textOf (f : CharCode → CharCode) (ps : List (CharCode × CharCode)) :
    (textOf ps).map f = textOf (ps.map fun p => (f p.1, f p.2)) := by
  induction ps with
  | nil => rfl
  | cons p ps ih => exact congrArg (f p.1 :: f p.2 :: ·) ih

/-- The pairs hold the whole text, but for an odd last character (R100). -/
theorem textOf_pairsOf : (text : List CharCode) → textOf (pairsOf text) = text.take (2 * (text.length / 2))
  | [] => rfl
  | [_] => by simp [pairsOf, textOf]
  | a :: b :: rest => by
    have hlength : 2 * ((a :: b :: rest).length / 2) = 2 * (rest.length / 2) + 1 + 1 := by
      simp only [List.length_cons]
      omega
    rw [hlength, List.take_succ_cons, List.take_succ_cons, ← textOf_pairsOf rest]
    rfl

theorem length_pairsOf (text : List CharCode) : (pairsOf text).length = text.length / 2 := by
  have hlength := length_textOf (pairsOf text)
  rw [textOf_pairsOf, List.length_take] at hlength
  omega

/-- Pair `j` of a text is its characters `2j` and `2j + 1`. -/
theorem getElem?_pairsOf {text : List CharCode} {j : ℕ} (hj : j < text.length / 2) :
    (pairsOf text)[j]? = some (text[2 * j], text[2 * j + 1]) := by
  obtain ⟨hfirst, hsecond⟩ := getElem?_textOf (pairsOf text) j
  rw [textOf_pairsOf, List.getElem?_take_of_lt (by omega), List.getElem?_eq_getElem (by omega),
    List.getElem?_eq_getElem (by rwa [length_pairsOf])] at hfirst hsecond
  rw [List.getElem?_eq_getElem (by rwa [length_pairsOf])]
  exact congrArg some (Prod.ext (Option.some.inj hfirst).symm (Option.some.inj hsecond).symm)

end Sys2Proof.Machine
end

section
/-! The encode pass (spec/44_passes.md R96, R101): the symbols it gives, and the cursor it counts. -/

namespace Sys2Proof.Machine

/-- The command of one pair of characters (R96). -/
def encOfPair (p : CharCode × CharCode) : Instr := .enc (c2b hardware p.1) (c2b hardware p.2)

/-- The symbol of one pair of characters (R55, R40). -/
def symOfPair (p : CharCode × CharCode) : Symbol := sym (c2b hardware p.1) (c2b hardware p.2)

theorem encodeCommands_eq (text : List CharCode) : encodeCommands text = .begin :: (pairsOf text).map encOfPair := rfl

/-- After `BEGIN` and one `ENC` per pair, `CUR` is the number of pairs modulo 4, whatever they say (R101). -/
theorem foldl_nextCur_begin_encs (cur : Index) (ps : List (CharCode × CharCode)) :
    (Instr.begin :: ps.map encOfPair).foldl nextCur cur = BitVec.ofNat 2 (ps.length % 4) := by
  have hbegin : Instr.begin ∉ ps.map encOfPair := by simp [encOfPair]
  have hcount : (ps.map encOfPair).countP isEnc = ps.length := by
    rw [List.countP_map]
    exact List.countP_eq_length.2 fun _ _ => rfl
  rw [foldl_nextCur_begin_cons cur hbegin, hcount]

/-- Each `ENC` answers with the symbol of its pair, at any cursor value (R68). -/
theorem symbols_of_passResponses_encs (cur : Index) (ps : List (CharCode × CharCode)) :
    ((passResponses cur (ps.map encOfPair)).map fun r => ({ re := r.data.re, im := r.data.im } : Symbol)) =
      ps.map symOfPair := by
  induction ps generalizing cur with
  | nil => rfl
  | cons p ps ih =>
    rw [List.map_cons, passResponses_cons, List.map_cons, ih]
    rfl

/-- The encode pass gives the symbols of the pairs, one by one. -/
theorem encodePass_eq (text : List CharCode) (s : State) :
    ∃ t, encodePass text s = some ((pairsOf text).map symOfPair, t) ∧
      t.cur = BitVec.ofNat 2 (text.length / 2 % 4) ∧ t.events = s.events := by
  obtain ⟨t, hpass, hcur, hevents⟩ := runPass_eq_passResponses (encodeCommands text) s
  rw [encodeCommands_eq, foldl_nextCur_begin_encs, length_pairsOf] at hcur
  refine ⟨t, ?_, hcur, hevents⟩
  rw [encodePass, hpass, encodeCommands_eq, passResponses_cons, Option.map_some, List.tail_cons,
    symbols_of_passResponses_encs]

/-- Settles O42: symbol `j` is that of pair `j`. -/
theorem encodePassMapsEveryPair : Obligations.EncodePassMapsEveryPair := by
  intro text s
  obtain ⟨t, hpass, hcur, hevents⟩ := encodePass_eq text s
  refine ⟨_, t, hpass, by rw [List.length_map, length_pairsOf], fun j hj => ?_, hcur, hevents⟩
  rw [List.getElem?_map, getElem?_pairsOf hj]
  rfl

/-- The responses of an encode pass show the cursor values 0, 1, 2, 3, 0, and so on, one more than there are pairs (R101). -/
theorem curs_of_encode_responses (cur : Index) (text : List CharCode) :
    (passResponses cur (encodeCommands text)).map Rsp.cur =
      (List.range (text.length / 2 + 1)).map fun j => BitVec.ofNat 2 (j % 4) := by
  have hlength : (passResponses cur (encodeCommands text)).length = text.length / 2 + 1 := by
    rw [length_passResponses, encodeCommands_eq, List.length_cons, List.length_map, length_pairsOf]
  refine List.ext_getElem (by simp [hlength]) fun j hj _ => ?_
  rw [List.length_map, hlength] at hj
  have hprefix : ((pairsOf text).take j).length = j := by
    rw [List.length_take, length_pairsOf]
    omega
  rw [List.getElem_map, cur_getElem_passResponses, encodeCommands_eq, List.take_succ_cons, ← List.map_take,
    foldl_nextCur_begin_encs, hprefix, List.getElem_map, List.getElem_range]

/-- Settles O45: both sequences are the count of the pairs so far, and the texts have equally many. -/
theorem cursorSequenceIgnoresBits : Obligations.CursorSequenceIgnoresBits := by
  intro text₁ text₂ s₁ s₂ hlength
  obtain ⟨t₁, hpass₁, hcur₁, -⟩ := runPass_eq_passResponses (encodeCommands text₁) s₁
  obtain ⟨t₂, hpass₂, hcur₂, -⟩ := runPass_eq_passResponses (encodeCommands text₂) s₂
  rw [encodeCommands_eq, foldl_nextCur_begin_encs, length_pairsOf] at hcur₁ hcur₂
  refine ⟨_, _, t₁, t₂, hpass₁, hpass₂, ?_, ?_⟩
  · rw [curs_of_encode_responses, curs_of_encode_responses, hlength]
  · rw [hcur₁, hcur₂, hlength]

end Sys2Proof.Machine
end

section
/-! The decode pass (spec/44_passes.md R97): the characters of each symbol's winner, or no result. -/

namespace Sys2Proof.Machine

/-- The two characters a symbol is read as: those of the complemented label bits of its nearest entry (R79, R80, R97). That a
decode pass reads them is `decodedText_of_finite`. -/
def charsOf (x : Symbol) : CharCode × CharCode :=
  let label := (readRom hardware (nearest hardware x)).label
  (b2c hardware !label.getLsbD 1, b2c hardware !label.getLsbD 0)

theorem complementLabel_bits (label : Pair) :
    (complementLabel label).getLsbD 1 = !label.getLsbD 1 ∧ (complementLabel label).getLsbD 0 = !label.getLsbD 0 := by
  revert label
  decide

/-- `CLS` does not move the cursor, so a decode pass answers every symbol at the `CUR` it starts from. -/
theorem passResponses_decodeCommands_cons (cur : Index) (x : Symbol) (xs : List Symbol) :
    passResponses cur (decodeCommands (x :: xs)) =
      responseTo cur (.cls x.re x.im) :: passResponses cur (decodeCommands xs) :=
  passResponses_cons cur _ _

theorem foldl_nextCur_decodeCommands (cur : Index) (xs : List Symbol) :
    (decodeCommands xs).foldl nextCur cur = cur := by
  induction xs with
  | nil => rfl
  | cons x xs ih => exact ih

theorem decodedText_okRsp_cons (cur : Index) (d : Data) (rest : List Rsp) : decodedText (okRsp cur d :: rest) =
    (decodedText rest).map fun text =>
      b2c hardware (d.bits.getLsbD 1) :: b2c hardware (d.bits.getLsbD 0) :: text :=
  if_pos rfl

theorem decodedText_errorRsp_cons (cur : Index) (e : BlockError) (rest : List Rsp) :
    decodedText (errorRsp cur e :: rest) = none :=
  if_neg (errorStatus_ne_ok e)

theorem decodedText_cons_of_finite (cur : Index) {x : Symbol} (rest : List Rsp)
    (hx : finite x.re = true ∧ finite x.im = true) :
    decodedText (responseTo cur (.cls x.re x.im) :: rest) =
      (decodedText rest).map fun text => (charsOf x).1 :: (charsOf x).2 :: text := by
  obtain ⟨hfirst, hsecond⟩ := complementLabel_bits (readRom hardware (nearest hardware x)).label
  have hanswer : responseTo cur (.cls x.re x.im) = okRsp cur (winnerData hardware (nearest hardware x)) :=
    if_pos (Bool.and_eq_true_iff.2 hx)
  rw [hanswer, decodedText_okRsp_cons, winnerData, hfirst, hsecond]
  rfl

theorem decodedText_cons_of_not_finite (cur : Index) {x : Symbol} (rest : List Rsp)
    (hx : finite x.re = false ∨ finite x.im = false) :
    decodedText (responseTo cur (.cls x.re x.im) :: rest) = none := by
  have hanswer : responseTo cur (.cls x.re x.im) = errorRsp cur .nonfinite := by
    rw [responseTo, Bool.and_eq_false_iff.2 hx]
    rfl
  rw [hanswer, decodedText_errorRsp_cons]

/-- Symbols that are all finite are read one by one. -/
theorem decodedText_of_finite (cur : Index) {xs : List Symbol}
    (hfinite : ∀ x ∈ xs, finite x.re = true ∧ finite x.im = true) :
    decodedText (passResponses cur (decodeCommands xs)) = some (textOf (xs.map charsOf)) := by
  induction xs with
  | nil => rfl
  | cons x xs ih =>
    obtain ⟨hx, hxs⟩ := List.forall_mem_cons.1 hfinite
    rw [passResponses_decodeCommands_cons, decodedText_cons_of_finite cur _ hx, ih hxs]
    rfl

/-- One symbol that is not finite leaves the whole pass without a result. -/
theorem decodedText_of_not_finite (cur : Index) {xs : List Symbol}
    (hnot : ∃ x ∈ xs, finite x.re = false ∨ finite x.im = false) :
    decodedText (passResponses cur (decodeCommands xs)) = none := by
  induction xs with
  | nil => simp at hnot
  | cons x xs ih =>
    rw [passResponses_decodeCommands_cons]
    by_cases hx : finite x.re = true ∧ finite x.im = true
    · have hxs : ∃ y ∈ xs, finite y.re = false ∨ finite y.im = false := by simpa [hx] using hnot
      rw [decodedText_cons_of_finite cur _ hx, ih hxs]
      rfl
    · exact decodedText_cons_of_not_finite cur _ (by simpa [imp_iff_not_or] using hx)

theorem decodePass_eq (xs : List Symbol) (s : State) :
    ∃ t, decodePass xs s = some (decodedText (passResponses s.cur (decodeCommands xs)), t) ∧
      t.cur = s.cur ∧ t.events = s.events := by
  obtain ⟨t, hpass, hcur, hevents⟩ := runPass_eq_passResponses (decodeCommands xs) s
  rw [foldl_nextCur_decodeCommands] at hcur
  exact ⟨t, by rw [decodePass, hpass]; rfl, hcur, hevents⟩

/-- Settles O43: the result is that of the pass's responses, and characters `2j` and `2j + 1` are those of symbol `j`. -/
theorem decodePassReadsEverySymbol : Obligations.DecodePassReadsEverySymbol := by
  intro xs s
  obtain ⟨t, hpass, hcur, hevents⟩ := decodePass_eq xs s
  refine ⟨_, t, hpass, hcur, hevents, decodedText_of_not_finite s.cur, fun hfinite => ?_⟩
  refine ⟨_, decodedText_of_finite s.cur hfinite, by rw [length_textOf, List.length_map], fun j hj => ?_⟩
  obtain ⟨hfirst, hsecond⟩ := getElem?_textOf (xs.map charsOf) j
  rw [hfirst, hsecond, List.getElem?_map, List.getElem?_eq_getElem hj]
  exact ⟨rfl, rfl⟩

end Sys2Proof.Machine
end

section
/-! The round trip (spec/44_passes.md R98, R100, R103): each mapped symbol is a ROM point, and its own nearest. -/

namespace Sys2Proof.Machine

theorem sym_finite (b₁ b₀ : Bool) : finite (sym b₁ b₀).re = true ∧ finite (sym b₁ b₀).im = true := by
  revert b₁ b₀
  decide

/-- The entry nearest to a mapped symbol is the one at the complement of its pair (R62, R86). -/
theorem nearest_sym (b₁ b₀ : Bool) : nearest hardware (sym b₁ b₀) = ~~~pairOf b₁ b₀ := by
  obtain ⟨-, hself⟩ := romPointsAreTheirOwnNearest
  obtain ⟨hre, him⟩ := readRom_point_of_label_eq_complement (readRom_label (~~~pairOf b₁ b₀))
  calc nearest hardware (sym b₁ b₀)
    _ = nearest hardware ⟨(sym b₁ b₀).re, (sym b₁ b₀).im⟩ := rfl
    _ = ~~~pairOf b₁ b₀ := by rw [hre, him, hself]

/-- The complement is undone: a mapped pair of bits is read as the characters of the same bits. -/
theorem charsOf_sym (b₁ b₀ : Bool) : charsOf (sym b₁ b₀) = (b2c hardware b₁, b2c hardware b₀) := by
  obtain ⟨hfirst, hsecond⟩ := complement_pairOf_bits b₁ b₀
  simp only [charsOf, nearest_sym, readRom_label, hfirst, hsecond, Bool.not_not]

/-- How a character is read back: every one but 0x31 as 0x30 (R103). -/
def readBack (c : CharCode) : CharCode := if c = 0x31 then 0x31 else 0x30

/-- The bit of a character and the character of that bit (R40). -/
theorem b2c_c2b (c : CharCode) : b2c hardware (c2b hardware c) = readBack c :=
  if_congr beq_iff_eq rfl rfl

theorem charsOf_symOfPair (p : CharCode × CharCode) : charsOf (symOfPair p) = (readBack p.1, readBack p.2) := by
  rw [symOfPair, charsOf_sym, b2c_c2b, b2c_c2b]

theorem map_readBack_of_binary {text : List CharCode} (hbinary : ∀ c ∈ text, c = 0x30 ∨ c = 0x31) :
    text.map readBack = text := by
  refine (List.map_congr_left fun c hc => ?_).trans text.map_id
  obtain rfl | rfl := hbinary c hc <;> rfl

/-- Settles O44: pair by pair the characters are read back, and the pairs are the text. -/
theorem decodeOfEncodeRestoresText : Obligations.DecodeOfEncodeRestoresText := by
  intro text s s'
  obtain ⟨t, hencode, -, -⟩ := encodePass_eq text s
  obtain ⟨t', hdecode, -, -⟩ := decodePass_eq ((pairsOf text).map symOfPair) s'
  have hfinite : ∀ x ∈ (pairsOf text).map symOfPair, finite x.re = true ∧ finite x.im = true :=
    List.forall_mem_map.2 fun p _ => sym_finite _ _
  have hout : textOf (((pairsOf text).map symOfPair).map charsOf) =
      (text.take (2 * (text.length / 2))).map readBack := by
    rw [← textOf_pairsOf, map_textOf, List.map_map]
    exact congrArg textOf (List.map_congr_left fun p _ => charsOf_symOfPair p)
  rw [decodedText_of_finite _ hfinite] at hdecode
  refine ⟨_, t, _, t', hencode, hdecode, hout, fun hbinary heven => ?_⟩
  rw [hout, List.take_of_length_le (by omega), map_readBack_of_binary hbinary]

end Sys2Proof.Machine
end

section
/-! Errors (spec/60_exceptions.md R105 to R108): which command raises which, and that an error leaves nothing but its
response. -/

namespace Sys2Proof.Machine

/-- The error a command raises, by the column "cause" of R105. That `exec` answers exactly these is
`responseTo_of_errorOf_eq_some` and `status_responseTo`. -/
def errorOf : Instr → Option BlockError
  | .mapc len _ _ => if len ≠ 2 then some .len else none
  | .cls re im => if finite re && finite im then none else some .nonfinite
  | .reserved6 | .reserved7 => some .op
  | .romrd _ | .map _ _ | .begin | .enc _ _ => none

/-- A command that raises an error answers with that error's response, whatever the command (R108). -/
theorem responseTo_of_errorOf_eq_some (cur : Index) {i : Instr} {e : BlockError} (h : errorOf i = some e) :
    responseTo cur i = errorRsp cur e := by
  cases i with
  | mapc len a b =>
    obtain ⟨hlen, he⟩ : len ≠ 2 ∧ BlockError.len = e := by simpa [errorOf] using h
    exact he ▸ responseTo_mapc_of_ne_two cur a b hlen
  | cls re im =>
    simp only [errorOf, responseTo] at h ⊢
    split at h
    next => cases h
    next hcheck =>
      cases h
      exact if_neg hcheck
  | reserved6 | reserved7 =>
    cases h
    rfl
  | romrd | map | begin | enc => cases h

/-- A command that raises none answers OK (R105). -/
theorem status_responseTo_of_errorOf_eq_none (cur : Index) {i : Instr} (h : errorOf i = none) :
    (responseTo cur i).status = .ok := by
  cases i with
  | mapc len a b =>
    have hlen : len = 2 := by simpa [errorOf] using h
    rw [hlen, responseTo_mapc_two]
    rfl
  | cls re im =>
    simp only [errorOf, responseTo] at h ⊢
    split at h
    next hcheck => rw [if_pos hcheck, okRsp]
    next => cases h
  | romrd | map | begin | enc => rfl
  | reserved6 | reserved7 => cases h

/-- The status of every answer is that of the error raised, and OK where none is. -/
theorem status_responseTo (cur : Index) (i : Instr) : (responseTo cur i).status = (errorOf i).elim .ok errorStatus := by
  cases h : errorOf i with
  | none => exact status_responseTo_of_errorOf_eq_none cur h
  | some e => exact congrArg Rsp.status (responseTo_of_errorOf_eq_some cur h)

theorem errorStatus_injective {e e' : BlockError} (h : errorStatus e = errorStatus e') : e = e' := by
  revert h
  cases e <;> cases e' <;> decide

/-- The status names the error. -/
theorem status_responseTo_eq_errorStatus_iff (cur : Index) (i : Instr) (e : BlockError) :
    (responseTo cur i).status = errorStatus e ↔ errorOf i = some e := by
  rw [status_responseTo]
  cases errorOf i with
  | none => exact ⟨fun h => absurd h.symm (errorStatus_ne_ok e), fun h => nomatch h⟩
  | some e' => exact ⟨fun h => congrArg some (errorStatus_injective h), fun h => congrArg errorStatus (Option.some.inj h)⟩

theorem exists_errorOf_of_status_ne_ok {cur : Index} {i : Instr} (h : (responseTo cur i).status ≠ .ok) :
    ∃ e, errorOf i = some e :=
  Option.ne_none_iff_exists'.1 fun hnone => h (status_responseTo_of_errorOf_eq_none cur hnone)

/-! ### The rows of R105 -/

theorem errorOf_eq_len_iff (i : Instr) : errorOf i = some .len ↔ ∃ len c₁ c₂, i = .mapc len c₁ c₂ ∧ len ≠ 2 := by
  cases i with
  | mapc len a b => simp [errorOf]
  | romrd | map | begin | enc | cls | reserved6 | reserved7 => simp [errorOf]

theorem errorOf_eq_op_iff (i : Instr) : errorOf i = some .op ↔ i = .reserved6 ∨ i = .reserved7 := by
  cases i with
  | reserved6 | reserved7 => simp [errorOf]
  | romrd | map | mapc | begin | enc | cls => simp [errorOf]

theorem errorOf_eq_nonfinite_iff (i : Instr) :
    errorOf i = some .nonfinite ↔ ∃ re im, i = .cls re im ∧ (expField re = 255 ∨ expField im = 255) := by
  cases i with
  | cls re im => simp [errorOf, finite, Decidable.imp_iff_not_or]
  | romrd | map | mapc | begin | enc | reserved6 | reserved7 => simp [errorOf]

/-- Codes 4 to 7 are never produced (R105). -/
theorem statusCode_lt_four (st : Status) : (statusCode st).toNat < 4 := by
  cases st <;> decide

/-! ### The obligations -/

/-- Settles O34: the decoder looks at the opcode alone, and `raise` is all the two commands do. -/
theorem reservedOpcodesAnswerErrOp : Obligations.ReservedOpcodesAnswerErrOp :=
  ⟨fun arg => ⟨decode_reserved6_word arg, decode_reserved7_word arg⟩,
    fun s => exec_eq_emit_of_not_writer (i := .reserved6) s Instr.noConfusion rfl,
    fun s => exec_eq_emit_of_not_writer (i := .reserved7) s Instr.noConfusion rfl⟩

/-- Settles O35: the status names the error the command raises, and the rows of R105 name its cause. -/
theorem eachErrorHasItsCause : Obligations.EachErrorHasItsCause := by
  refine ⟨fun i s => ?_, rfl, rfl, rfl, rfl, fun r => ?_⟩
  · have hstatus := status_responseTo_eq_errorStatus_iff s.cur i
    exact ⟨_, _, exec_eq_emit_responseTo i s, rfl, (hstatus .len).trans (errorOf_eq_len_iff i),
      (hstatus .op).trans (errorOf_eq_op_iff i), (hstatus .nonfinite).trans (errorOf_eq_nonfinite_iff i)⟩
  · obtain ⟨hfield, -⟩ := rspWord_fields r
    rw [hfield]
    exact statusCode_lt_four r.status

/-- Settles O36: the one response is the error's, whose field `cur` is the old `CUR`, so writing it back writes nothing. -/
theorem errorLeavesNoTrace : Obligations.ErrorLeavesNoTrace := by
  intro s t w rest r hstep hresponses hstatus
  have hanswer := exec_eq_emit_responseTo (decode w) (s.setEvents rest)
  cases hanswer.symm.trans hstep
  obtain rfl : responseTo s.cur (decode w) = r := by simpa using hresponses
  obtain ⟨e, he⟩ := exists_errorOf_of_status_ne_ok hstatus
  rw [setEvents_cur, responseTo_of_errorOf_eq_some s.cur he]
  exact ⟨rfl, rfl, rfl⟩

end Sys2Proof.Machine
end

section
/-! Reset, and the wait for an event (spec/70_reset_and_hazards.md R120, R121). -/

namespace Sys2Proof.Machine

/-- With no event presented the step is `idle`, which writes nothing (R121; log 4). -/
@[simp] theorem step_setEvents_nil (s : State) : step (s.setEvents []) = .next (s.setEvents []) := rfl

/-- Settles O1: the step on a reset event is the model's `applyReset` at the remaining events, which writes `CUR` alone, and
the ROM, being no part of the state, is the packed table of R21. -/
theorem resetZeroesOnlyTheCursor : Obligations.ResetZeroesOnlyTheCursor := by
  have hpowerOn : State.reset.cur = 0 := rfl
  exact ⟨hpowerOn, step_reset, packEntry_readRom⟩

/-- Settles O2: with no event presented the step is `idle`. -/
theorem blockWaitsWithoutEvents : Obligations.BlockWaitsWithoutEvents :=
  step_setEvents_nil

end Sys2Proof.Machine
end

section
/-! Command words written out in the spec (spec/95_test_vectors.md sections 2 to 7): each is cut into the fields of R32, with
whatever reserved bits its vector sets. -/

namespace Sys2Proof

/-- Settles O12: each word is an opcode, reserved bits and operand fields put together, and the decoder gives the operands back
under any reserved bits (R33). -/
theorem writtenOutWordsDecode : Obligations.WrittenOutWordsDecode :=
  have k9 : decode 0x0FFFFFFFFFFFFFFFD = .romrd 1 := decode_romrd_fields (BitVec.allOnes 62) 1
  have m4b : decode 0x1FFFFFFFFFFFFFFFE = .map true false := decode_map_fields (BitVec.allOnes 62) true false
  have m16 : decode 0x2ABCDEF0123023130 = .mapc 2 0x31 0x30 := decode_mapc_fields 0xABCDEF0123 2 0x31 0x30
  have b5 : decode 0x3DEADBEEF00000001 = .begin := decode_begin_word 0xDEADBEEF00000001
  have e9 : decode 0x4FFFFFFFFFFFFFFFD = .enc false true := decode_enc_fields (BitVec.allOnes 62) false true
  have c2 : decode 0x53F800000BF800000 = .cls 0x3F800000 0xBF800000 := decode_cls_fields 0x3F800000 0xBF800000
  have x3 : decode 0x63F800000BF800000 = .reserved6 := decode_reserved6_word 0x3F800000BF800000
  have x4 : decode 0x7FFFFFFFFFFFFFFFF = .reserved7 := decode_reserved7_word (BitVec.allOnes 64)
  ⟨k9, m4b, m16, b5, e9, c2, x3, x4⟩

end Sys2Proof
end
